-- ==== Sys2Proof/Word.lean ====
section
/-! DEFINITION. The word types of the FrameQuantizer: what spec/ treats as patterns of bits. -/

namespace Sys2Proof

/-- A 32-bit register or bus word (10_state.md R22, 20_memory.md R63). -/
abbrev Word := BitVec 32

/-- One byte of the bus or of the PCM payload (20_memory.md R69, 30_encoding.md R101). -/
abbrev Byte := BitVec 8

/-- A 16-bit output sample pattern (10_state.md R40). -/
abbrev Half := BitVec 16

/-- A byte offset inside the 1 MiB aperture (20_memory.md R60). -/
abbrev Offset := BitVec 20

end Sys2Proof
end

