-- ==== Sys2Proof/Syntax.lean ====
section
/-! DEFINITION. The syntax: the commands (one constructor per row of spec/opcode_table.json) and the moves of the
three agents. -/

namespace Sys2Proof

/-- The commands a Host submits through CMD (30_encoding.md R91). -/
inductive Instr where
  /-- NOP (41_commands.md R152). -/
  | nop
  /-- PROCESS of `n` samples; `n` is an unsigned count, 0 to 65535 (30_encoding.md R92). -/
  | process (n : Nat)
  /-- SRESET (41_commands.md R160). -/
  | sreset
deriving DecidableEq, Repr

/-- The size of a Host access (20_memory.md R63). -/
inductive AccessSize where
  /-- An access of `n` whole bytes. -/
  | bytes (n : Nat)
  /-- An access with a partial byte-enable pattern. -/
  | partialEnables
deriving DecidableEq, Repr

/-- One access of the Host to the register bus (20_memory.md R65). -/
inductive HostAccess where
  | read (off : Offset) (size : AccessSize)
  | write (off : Offset) (size : AccessSize) (v : Word)
deriving DecidableEq, Repr

/-- The Sink's two answers to an offer (42_handoff.md R181). -/
inductive SinkAnswer where
  | accept
  | closed
deriving DecidableEq, Repr

/-- One atomic step of one agent (00_scope.md R8). -/
inductive Action where
  | host (a : HostAccess)
  | sink (a : SinkAnswer)
  | reset
deriving DecidableEq, Repr

/-- `MemRead(off, 4)` of 00_scope.md R13: `rd off` in the notation of 30_encoding.md R102. -/
abbrev Action.rd (off : Offset) : Action := .host (.read off (.bytes 4))

/-- `MemWrite(off, 4, v)` of 00_scope.md R13: `wr off, v` in the notation of 30_encoding.md R102. -/
abbrev Action.wr (off : Offset) (v : Word) : Action := .host (.write off (.bytes 4) v)

end Sys2Proof
end

