-- ==== Sys2Proof/WellFormed.lean ====
section
/-! DEFINITION. Which commands have an encoding. -/

namespace Sys2Proof

/-- The LEN field has 16 bits: a frame length is 0 to 65535 (30_encoding.md R90, R92). -/
def Instr.wellFormed : Instr → Bool
  | .nop => true
  | .process n => decide (n ≤ 65535)
  | .sreset => true

/-- A command that has an encoding. -/
abbrev Instr.WellFormed (i : Instr) : Prop := i.wellFormed = true

end Sys2Proof
end

