-- ==== Sys2Proof/Decode.lean ====
section
/-! DEFINITION. Decoding of command words (30_encoding.md R90 to R97), and after it the encoder. -/

namespace Sys2Proof

/-- Why a command word is invalid (30_encoding.md R93). -/
inductive DecodeError where
  /-- Reserved opcode, 0x3 to 0xF. -/
  | badOp
  /-- A valid opcode with a non-zero reserved field. -/
  | rsvdBits
deriving DecidableEq, Repr

/-- What `Decode` answers: `Invalid(code)` or a command (30_encoding.md R93). -/
inductive Decoded where
  | invalid (e : DecodeError)
  | command (i : Instr)
deriving DecidableEq, Repr

/-- OP, bits [3:0] of a command word (30_encoding.md R90). -/
def opField (w : Word) : BitVec 4 := w.extractLsb' 0 4

/-- RSVD, bits [15:4] of a command word (30_encoding.md R90). -/
def rsvdField (w : Word) : BitVec 12 := w.extractLsb' 4 12

/-- LEN, bits [31:16] of a command word (30_encoding.md R90). -/
def lenField (w : Word) : BitVec 16 := w.extractLsb' 16 16

/-- `Decode(w)`, total on every word, the opcode test before the reserved-bit test (30_encoding.md R93). -/
def decode (w : Word) : Decoded :=
  if 2 < (opField w).toNat then .invalid .badOp
  else if rsvdField w ≠ 0 then .invalid .rsvdBits
  else if opField w = 0 then
    if lenField w ≠ 0 then .invalid .rsvdBits else .command .nop
  else if opField w = 1 then .command (.process (lenField w).toNat)
  else if lenField w ≠ 0 then .invalid .rsvdBits else .command .sreset

/-- Byte `k` of a bus word, bits [8k+7:8k] (20_memory.md R69). -/
def byteOf (w : Word) (k : Nat) : Byte := w.extractLsb' (8 * k) 8

/-- The four bytes of a bus word, the one at the lowest address first (20_memory.md R69). -/
def bytesOfWord (w : Word) : List Byte := [byteOf w 0, byteOf w 1, byteOf w 2, byteOf w 3]

/-- The bus word of four bytes, the one at the lowest address first (20_memory.md R69). -/
def wordOfBytes (b0 b1 b2 b3 : Byte) : Word := b3 ++ b2 ++ b1 ++ b0

/-- Decode a command laid out as bytes. Each CMD write carries exactly one 32-bit command (30_encoding.md R97), so
any other number of bytes is no command. -/
def decodeBytes : List Byte → Option Decoded
  | [b0, b1, b2, b3] => some (decode (wordOfBytes b0 b1 b2 b3))
  | _ => none

/-- The instruction this decoder reads from a row's bits `w`, numbered as spec/opcode_table.json numbers them; the
bits above `nbits` are 0. -/
def decodeTableWord (nbits w : Nat) : Option Instr :=
  match decodeBytes (bytesOfWord (BitVec.ofNat 32 (w % 2 ^ nbits))) with
  | some (.command i) => some i
  | _ => none

/-- The command word of an instruction (30_encoding.md R94). -/
def encode : Instr → Word
  | .nop => 0x00000000#32
  | .process n => BitVec.ofNat 16 n ++ 0x0001#16
  | .sreset => 0x00000002#32

/-- One row of the opcode map: a word selects it when `(w AND mask) = match` (30_encoding.md R91). -/
structure OpcodeRow where
  mask : Word
  bits : Word
deriving DecidableEq, Repr

/-- The row of the opcode map an instruction belongs to (30_encoding.md R91). -/
def Instr.row : Instr → OpcodeRow
  | .nop => ⟨0xFFFFFFFF#32, 0x00000000#32⟩
  | .process _ => ⟨0x0000FFFF#32, 0x00000001#32⟩
  | .sreset => ⟨0xFFFFFFFF#32, 0x00000002#32⟩

/-- The opcode map (30_encoding.md R91). -/
def opcodeMap : List OpcodeRow := [Instr.nop.row, (Instr.process 0).row, Instr.sreset.row]

/-- `w` selects row `r` (30_encoding.md R91). -/
def OpcodeRow.selects (r : OpcodeRow) (w : Word) : Bool := w &&& r.mask == r.bits

end Sys2Proof
end

