-- ==== Sys2Proof/Config.lean ====
section
/-! DEFINITION. What an implementation fixes (the spec's open parameters) and the free values.
Every `opaque` below has no body: no proof can learn its value, so a claim holds for every value. -/

namespace Sys2Proof

/-- NMAX less one: any number from 0 to 65534 (00_scope.md R9). DESIGN CHOICE (log 5): the open parameter is a
free constant. Safe. -/
opaque Config.nmaxLessOne : Fin 65535

/-- NMAX, the capacity of IN_BUF and OUT_BUF in samples, 1 <= NMAX <= 65535 (00_scope.md R9). -/
def Config.nmax : Nat := Config.nmaxLessOne.val + 1

/-- BASE in units of 2^20 bytes (00_scope.md R10). DESIGN CHOICE (log 6): a free constant. Safe. -/
opaque Config.baseMiB : Nat

/-- BASE, the host-bus address of the aperture: a multiple of 2^20 (00_scope.md R10). -/
def Config.base : Nat := Config.baseMiB * 0x100000

/-- The unspecified word `IN_BUF[i]` holds from the `draw`-th reset until its first write (10_state.md R42; S1 of
93_implementation_defined.md: one free 32-bit draw per word at reset). A free value (log 7). Safe. -/
opaque Config.inBufDraw (draw i : Nat) : Word

/-- The unspecified pattern `OUT_BUF[i]` holds from the `draw`-th reset until a PROCESS writes it (10_state.md R45;
S2 of 93_implementation_defined.md: any value, never observable). A free value (log 8). Safe. -/
opaque Config.outBufDraw (draw i : Nat) : Half

end Sys2Proof
end

