-- ==== Sys2Proof/Machine/State.lean ====
section
/-! DEFINITION. The machine's state as plain data, the reasons a step can stop, and the state after reset. -/

namespace Sys2Proof.Machine

/-- The message `Frame(n, P)` of an offer: the length and the 2n-byte PCM payload (42_handoff.md R180). -/
structure Frame where
  len : BitVec 16
  payload : List Byte
deriving DecidableEq, Repr

/-- What the bus answers to a Host access (00_scope.md R17, 20_memory.md R65). -/
inductive Response where
  /-- OKAY to a write. -/
  | okay
  /-- OKAY to a read, with the value read. -/
  | data (v : Word)
  /-- ERROR: no data, nothing stored (20_memory.md R62 to R64). -/
  | error
deriving DecidableEq, Repr

/-- Memory as (aperture byte offset, byte) pairs. The canonical form is `Memory.wf` (Ops.lean). A byte is listed
exactly when its IN_BUF word is marked written (10_state.md R41, log 12). -/
abbrev Memory := List Host.Cell

/-- Everything the spec gives the machine (10_state.md R21, R45), and three fields of the model's own:
`draws`, `response` and `pending`. -/
structure State where
  /-- CTRL.RMODE: false truncates, true rounds half to even (10_state.md R25). -/
  rmode : Bool
  /-- GAIN (10_state.md R26). -/
  gain : Word
  /-- STATUS.PEND: a frame is offered and unanswered (10_state.md R28). -/
  pend : Bool
  /-- STATUS.FATAL: the Sink has answered CLOSED (10_state.md R29). -/
  fatal : Bool
  /-- STATUS.ERRCODE: cause of the latest rejection (10_state.md R30). -/
  errcode : BitVec 4
  /-- STATUS.OLEN: length of the latest performed PROCESS with n > 0 (10_state.md R31). -/
  olen : BitVec 16
  /-- EVENTS[3:0] (10_state.md R32). -/
  events : BitVec 4
  /-- IRQ_EN[3:0] (10_state.md R33). -/
  irqEn : BitVec 4
  /-- FRAME_COUNT (10_state.md R36). -/
  frameCount : BitVec 32
  /-- CAP[15:0] = NMAX, constant (10_state.md R37). -/
  cap : BitVec 16
  /-- The written IN_BUF words, as bytes (10_state.md R39, R41). -/
  inBuf : Memory
  /-- OUT_BUF's leading elements that some PROCESS has written since reset, element 0 first (10_state.md R40).
  A PROCESS writes elements 0 to n-1, so the written elements always lead (log 8). -/
  outBuf : List Half
  /-- The frames the Sink has accepted, the first accepted first (42_handoff.md R184). The Sink's own. -/
  stream : List Frame
  /-- MODEL: which free draw the unwritten buffer words hold; every hardware reset advances it (log 7). -/
  draws : Nat
  /-- MODEL: the bus's answer to the Host's latest access (log 10). -/
  response : Option Response
  /-- MODEL: the agents' moves still to come, the next one first (log 1). -/
  pending : List Action
deriving DecidableEq, Repr

/-- Why the machine stops. -/
inductive Fault where
  /-- Raised by a Sink move while STATUS.PEND = 0, which "does not exist in the model" (42_handoff.md R181). No agent
  can make this move on hardware that meets the spec. The spec says its absence errs toward proving if real hardware
  allows it (70_reset_and_hazards.md R243): unsafe (log 4). -/
  | sinkWithoutOffer
deriving DecidableEq, Repr

/-- Why an instruction has no meaning. -/
inductive Refusal where
  /-- Raised by `exec` for an instruction that has no meaning yet. No arm raises it. Safe. -/
  | notModelled (mnemonic : String)
deriving DecidableEq, Repr

/-- The outcome of one step of this machine. -/
abbrev StepOutcome := Host.Outcome State Fault Refusal

/-- The machine right after power-on, which is a hardware reset (70_reset_and_hazards.md R231): the "after hardware
reset" column of 10_state.md R45. `stream`, `draws`, `response` and `pending` are log 11, 7, 10 and 1. -/
def State.reset : State where
  rmode := false
  gain := 0x3F4CCCCD#32
  pend := false
  fatal := false
  errcode := 0
  olen := 0
  events := 0
  irqEn := 0
  frameCount := 0
  cap := BitVec.ofNat 16 Config.nmax
  inBuf := []
  outBuf := []
  stream := []
  draws := 0
  response := none
  pending := []

end Sys2Proof.Machine
end

