-- ==== Sys2Proof/Machine/Flags.lean ====
section
/-! DEFINITION. The status and event bits: EVENTS, the rejection codes of STATUS.ERRCODE, the STATUS word, the IRQ
output and the delivery state. -/

namespace Sys2Proof.Machine

/-- The four events (10_state.md R32). -/
inductive Event where
  | delivered
  | skipped
  | rejected
  | sinkfail
deriving DecidableEq, Repr

/-- The bit of an event, as a mask of EVENTS[3:0] (10_state.md R32). -/
def Event.mask : Event → BitVec 4
  | .delivered => 0x1#4
  | .skipped => 0x2#4
  | .rejected => 0x4#4
  | .sinkfail => 0x8#4

/-- Setting an event that is already 1 leaves it 1 (10_state.md R32). -/
def setEvent (events : BitVec 4) (e : Event) : BitVec 4 := events ||| e.mask

/-- The W1C write: `EVENTS[3:0] AND NOT v[3:0]` (10_state.md R32). -/
def clearEvents (events : BitVec 4) (v : Word) : BitVec 4 := events &&& ~~~(v.extractLsb' 0 4)

/-- The causes of a rejection (60_exceptions.md R200). -/
inductive RejectCode where
  | badOp
  | rsvdBits
  | fatal
  | busy
  | badLen
  | badGain
deriving DecidableEq, Repr

/-- The ERRCODE value of a cause (60_exceptions.md R200). -/
def RejectCode.code : RejectCode → BitVec 4
  | .badOp => 1
  | .rsvdBits => 2
  | .fatal => 3
  | .busy => 4
  | .badLen => 5
  | .badGain => 6

/-- The code `Decode` returns with an invalid word (30_encoding.md R93). -/
def RejectCode.ofDecode : DecodeError → RejectCode
  | .badOp => .badOp
  | .rsvdBits => .rsvdBits

/-- One bit as a bit vector. -/
def bit (b : Bool) : BitVec 1 := BitVec.ofBool b

/-- STATUS assembled from its fields, reserved bits 0 (10_state.md R27). -/
def State.statusWord (s : State) : Word :=
  s.olen ++ 0#4 ++ s.errcode ++ 0#6 ++ bit s.fatal ++ bit s.pend

/-- The interrupt output, a level (10_state.md R34). -/
def State.irq (s : State) : Bool :=
  (List.range 4).any fun k => s.events.getLsbD k && s.irqEn.getLsbD k

/-- The delivery states (10_state.md R43). -/
inductive Delivery where
  | idle
  | offered
  | failed
deriving DecidableEq, Repr

/-- The delivery state of the pair (PEND, FATAL); PEND = 1 with FATAL = 1 never occurs (10_state.md R43). -/
def State.delivery? (s : State) : Option Delivery :=
  match s.pend, s.fatal with
  | false, false => some .idle
  | true, false => some .offered
  | false, true => some .failed
  | true, true => none

end Sys2Proof.Machine
end

