-- ==== Sys2Proof/Machine/Ops.lean ====
section
/-! DEFINITION. The named operations over memory, the sample buffers and the registers, and the recording of a
rejection (the block's "trap entry") with the acknowledgement of events (its "trap return") beside it. -/

namespace Sys2Proof.Machine

/-! ### Memory: IN_BUF as bytes -/

/-- First byte offset of the IN_BUF window (20_memory.md R61). -/
def inBase : Nat := 0x40000

/-- The byte stored at an offset; `none` where nothing has been written since reset (log 12). -/
def Memory.read? : Memory → Nat → Option Byte
  | [], _ => none
  | (k, b) :: m, a => if a = k then some b else Memory.read? m a

/-- Store one byte, keeping the offsets strictly rising. -/
def Memory.write : Memory → Nat → Byte → Memory
  | [], a, b => [(a, b)]
  | (k, c) :: m, a, b =>
    if a < k then (a, b) :: (k, c) :: m
    else if a = k then (a, b) :: m
    else (k, c) :: Memory.write m a b

/-- Store one bus word at a byte offset, byte `k` at `a + k` (20_memory.md R69). -/
def Memory.writeWord (m : Memory) (a : Nat) (v : Word) : Memory :=
  (((m.write a (byteOf v 0)).write (a + 1) (byteOf v 1)).write (a + 2) (byteOf v 2)).write (a + 3) (byteOf v 3)

/-- Offsets strictly rise: each is listed once, and equal contents are equal lists. -/
abbrev Memory.Rising (m : Memory) : Prop := (m.map Prod.fst).Pairwise (· < ·)

/-- Every listed offset lies in the IN_BUF window of a block of capacity `nmax` (20_memory.md R61). -/
abbrev Memory.InWindow (nmax : Nat) (m : Memory) : Prop :=
  ∀ c ∈ m, inBase ≤ c.1 ∧ c.1 < inBase + 4 * nmax

/-- Every listed byte's whole word is listed: only 32-bit writes exist (20_memory.md R63). -/
abbrev Memory.WholeWords (m : Memory) : Prop :=
  ∀ c ∈ m, ∀ k ∈ List.range 4, (m.read? (c.1 / 4 * 4 + k)).isSome = true

/-- The canonical form of memory. An unlisted offset holds no stored byte, so no entry can equal what an unlisted
offset holds: a word written with the value it happened to hold is still marked written (10_state.md R41, log 12). -/
abbrev Memory.wf (nmax : Nat) (m : Memory) : Prop := m.Rising ∧ m.InWindow nmax ∧ m.WholeWords

/-- Byte offset of `IN_BUF[i]` (10_state.md R39). -/
def inOffset (i : Nat) : Nat := inBase + 4 * i

/-- The byte at offset `a` of the IN_BUF window: the stored byte, else the byte of the word's free draw
(10_state.md R42, log 7). -/
def State.inByte (s : State) (a : Nat) : Byte :=
  (s.inBuf.read? a).getD (byteOf (Config.inBufDraw s.draws ((a - inBase) / 4)) ((a - inBase) % 4))

/-- `IN_BUF[i]` (20_memory.md R66). -/
def State.inWord (s : State) (i : Nat) : Word :=
  wordOfBytes (s.inByte (inOffset i)) (s.inByte (inOffset i + 1)) (s.inByte (inOffset i + 2))
    (s.inByte (inOffset i + 3))

/-- The hidden written mark of `IN_BUF[i]` (10_state.md R41). -/
def State.inWritten (s : State) (i : Nat) : Bool := (s.inBuf.read? (inOffset i)).isSome

/-- `IN_BUF[i] <- v; mark i written` (20_memory.md R65, R66): `v` is stored unchanged. -/
def State.writeInWord (s : State) (i : Nat) (v : Word) : State :=
  { s with inBuf := s.inBuf.writeWord (inOffset i) v }

/-! ### OUT_BUF and the offer -/

/-- `OUT_BUF[i]`: the element written, else its free draw (10_state.md R40, log 8). -/
def State.outAt (s : State) (i : Nat) : Half := s.outBuf.getD i (Config.outBufDraw s.draws i)

/-- The samples `OUT_BUF[0..n-1]`. -/
def State.samples (s : State) (n : Nat) : List Half := (List.range n).map s.outAt

/-- The two payload bytes of one sample, low byte first (30_encoding.md R101). -/
def pcmBytes (h : Half) : List Byte := [h.extractLsb' 0 8, h.extractLsb' 8 8]

/-- The message `Frame(OLEN, P)` that the offer carries (42_handoff.md R180, 30_encoding.md R101). -/
def State.frame (s : State) : Frame := ⟨s.olen, (s.samples s.olen.toNat).flatMap pcmBytes⟩

/-- What the Sink sees of the block: the offer, which exists exactly while STATUS.PEND = 1 (42_handoff.md R180). -/
def State.offer? (s : State) : Option Frame := if s.pend then some s.frame else none

/-! ### Recording a rejection, and acknowledging events -/

/-- `raise Reject(code)`: STATUS.ERRCODE <- code, EVENTS.REJECTED <- 1, and nothing else (60_exceptions.md R201).
This is the block's only "trap entry" of a command (R208). -/
def State.reject (s : State) (c : RejectCode) : State :=
  { s with errcode := c.code, events := setEvent s.events .rejected }

/-- The Host's W1C write to EVENTS, the block's "trap return" (60_exceptions.md R209, 20_memory.md R68). -/
def State.ackEvents (s : State) (v : Word) : State := { s with events := clearEvents s.events v }

/-! ### Commands' and registers' state updates -/

/-- `ProcessEmpty`: EVENTS.SKIPPED <- 1 (41_commands.md R154). -/
def State.skipFrame (s : State) : State := { s with events := setEvent s.events .skipped }

/-- Write a frame to OUT_BUF[0..n-1], n its length, and offer it: OLEN <- n, PEND <- 1 (41_commands.md R155). The
elements from n on keep their values. -/
def State.offerFrame (s : State) (f : List Half) : State :=
  { s with outBuf := f ++ s.outBuf.drop f.length, olen := BitVec.ofNat 16 f.length, pend := true }

/-- `SReset` (41_commands.md R160). -/
def State.softReset (s : State) : State :=
  { s with pend := false, fatal := false, errcode := 0, olen := 0, events := 0, frameCount := 0 }

/-- Hardware reset (70_reset_and_hazards.md R230): the "after hardware reset" column of 10_state.md R45. Every IN_BUF
and OUT_BUF word takes a new free draw and every written mark is cleared. CAP is constant. What the Sink has taken
(log 11), what the Host has been answered (log 10) and the moves still to come (log 1) are not the block's. -/
def State.hardReset (s : State) : State :=
  { State.reset with
    cap := s.cap, draws := s.draws + 1, stream := s.stream, response := s.response, pending := s.pending }

/-- `SinkAccept`: deliver the frame, PEND <- 0, FRAME_COUNT + 1 modulo 2^32, DELIVERED <- 1 (42_handoff.md R182). -/
def State.deliver (s : State) : State :=
  { s with
    stream := s.stream ++ [s.frame], pend := false, frameCount := s.frameCount + 1
    events := setEvent s.events .delivered }

/-- `SinkClosed`: PEND <- 0, FATAL <- 1, SINKFAIL <- 1 (42_handoff.md R183). -/
def State.closeStream (s : State) : State :=
  { s with pend := false, fatal := true, events := setEvent s.events .sinkfail }

/-- Write CTRL: only RMODE is stored (20_memory.md R68, 10_state.md R25). -/
def State.writeCtrl (s : State) (v : Word) : State := { s with rmode := v.getLsbD 0 }

/-- Write GAIN: all 32 bits, unchanged (20_memory.md R68, 10_state.md R26). -/
def State.writeGain (s : State) (v : Word) : State := { s with gain := v }

/-- Write IRQ_EN: `v[3:0]` (20_memory.md R68, 10_state.md R33). -/
def State.writeIrqEn (s : State) (v : Word) : State := { s with irqEn := v.extractLsb' 0 4 }

/-- The bus completes the Host's access with this answer (log 10). -/
def State.respond (s : State) (r : Response) : State := { s with response := some r }

/-- The moves still to come become `p` (log 1). -/
def State.withPending (s : State) (p : List Action) : State := { s with pending := p }

end Sys2Proof.Machine
end

