-- ==== Sys2Proof/Machine/Operands.lean ====
section
/-! DEFINITION. Operand forms: binary32 patterns, int16 patterns, the registers by offset, and what a bus access
addresses. -/

namespace Sys2Proof.Machine

/-! ### binary32 (00_scope.md R15) -/

/-- `S = b[31]`. -/
def f32Sign (b : Word) : Bool := b.getLsbD 31

/-- `E = b[30:23]`, as a number. -/
def f32Exp (b : Word) : Nat := (b.extractLsb' 23 8).toNat

/-- `M = b[22:0]`, as a number. -/
def f32Frac (b : Word) : Nat := (b.extractLsb' 0 23).toNat

/-- The classes of a binary32 pattern (00_scope.md R15). -/
inductive F32Class where
  | nan
  | inf
  | finite
deriving DecidableEq, Repr

/-- `f32class(b)` (00_scope.md R15). -/
def f32class (b : Word) : F32Class :=
  if f32Exp b = 255 then (if f32Frac b = 0 then .inf else .nan) else .finite

/-- The magnitude of a finite pattern in units of 2^-149, the smallest subnormal: an exact natural number, since
every finite binary32 value is a multiple of 2^-149 (00_scope.md R15, log 14). -/
def f32Mag (b : Word) : Nat :=
  if f32Exp b = 0 then f32Frac b else (2 ^ 23 + f32Frac b) * 2 ^ (f32Exp b - 1)

/-- The value of a finite pattern in units of 2^-149 (00_scope.md R15, log 14). -/
def f32Units (b : Word) : Int := if f32Sign b then -(f32Mag b : Int) else f32Mag b

/-- `GainLegal(g)`: Finite with value >= 0, so both zeros are legal (41_commands.md R153, 10_state.md R26). -/
def gainLegal (g : Word) : Bool := decide (f32class g = .finite) && decide (0 ≤ f32Units g)

/-! ### int16 (00_scope.md R16) -/

/-- `bits16(k) = k mod 2^16` (00_scope.md R16). -/
def bits16 (k : Int) : Half := BitVec.ofInt 16 k

/-- `int16(b)`: `b - 2^16` when `b[15] = 1`, else `b` (00_scope.md R16). -/
def int16 (b : Half) : Int := if b.getLsbD 15 then (b.toNat : Int) - 65536 else b.toNat

/-! ### Registers and bus targets -/

/-- The registers of the map (10_state.md R23). -/
inductive Reg where
  | id
  | ctrl
  | gain
  | status
  | events
  | irqEn
  | cmd
  | frameCount
  | cap
deriving DecidableEq, Repr

/-- A register's offset from BASE (10_state.md R23). -/
def Reg.offset : Reg → Offset
  | .id => 0x000#20
  | .ctrl => 0x004#20
  | .gain => 0x008#20
  | .status => 0x00C#20
  | .events => 0x010#20
  | .irqEn => 0x014#20
  | .cmd => 0x018#20
  | .frameCount => 0x01C#20
  | .cap => 0x020#20

/-- The register map in offset order (10_state.md R23). -/
def Reg.all : List Reg := [.id, .ctrl, .gain, .status, .events, .irqEn, .cmd, .frameCount, .cap]

/-- The register at an offset, if one is there (10_state.md R23). -/
def Reg.ofOffset (off : Offset) : Option Reg := Reg.all.find? fun r => decide (r.offset = off)

/-- ID's constant (10_state.md R24). -/
def idValue : Word := 0x46510007#32

/-- `RegRead`: the register's value assembled from its fields, reserved bits 0, CMD reading 0 (20_memory.md R67). -/
def State.regRead (s : State) : Reg → Word
  | .id => idValue
  | .ctrl => (bit s.rmode).setWidth 32
  | .gain => s.gain
  | .status => s.statusWord
  | .events => s.events.setWidth 32
  | .irqEn => s.irqEn.setWidth 32
  | .cmd => 0
  | .frameCount => s.frameCount
  | .cap => s.cap.setWidth 32

/-- What a Host access addresses (20_memory.md R65). -/
inductive Target where
  /-- The access completes with an ERROR response. -/
  | busError
  | reg (r : Reg)
  /-- `IN_BUF[i]`. -/
  | inWord (i : Nat)
deriving DecidableEq, Repr

/-- The only access size is four whole bytes (20_memory.md R63). -/
def AccessSize.isWord : AccessSize → Bool
  | .bytes n => n == 4
  | .partialEnables => false

/-- The checks of `HostAccess`, in its order: size, alignment, register, IN_BUF window, else unmapped
(20_memory.md R65). -/
def busTarget (nmax : Nat) (off : Offset) (size : AccessSize) : Target :=
  if AccessSize.isWord size = false then .busError
  else if off.toNat % 4 ≠ 0 then .busError
  else match Reg.ofOffset off with
    | some r => .reg r
    | none =>
      if inBase ≤ off.toNat ∧ off.toNat < inBase + 4 * nmax then .inWord ((off.toNat - inBase) / 4)
      else .busError

/-- The byte offset of a host-bus address, if the address lies in the aperture (20_memory.md R60). The model's Host
accesses carry the offset (log 6). -/
def offsetOfAddress (address : Nat) : Option Offset :=
  if Config.base ≤ address ∧ address < Config.base + 0x100000 then
    some (BitVec.ofNat 20 (address - Config.base))
  else none

/-- The host-bus address of a byte offset (20_memory.md R60). -/
def addressOfOffset (off : Offset) : Nat := Config.base + off.toNat

end Sys2Proof.Machine
end

