-- ==== Sys2Proof/Machine/Quantize.lean ====
section
/-! DEFINITION. The per-sample function Q that PROCESS applies (40_quantize.md), on exact integers: a value `v` is
held as the integer `v * 2^298`, in which every product of two finite binary32 values is exact (R121, R137, log 14).
Rational.lean has the same function on the rationals, in the words of spec/. -/

namespace Sys2Proof.Machine

/-- The value 1 in units of 2^-298, the unit of a product of two values held in units of 2^-149. -/
def one298 : Int := 2 ^ 149 * 2 ^ 149

/-- `clamp(x, lo, hi) = max(lo, min(hi, x))` (00_scope.md R14). -/
def clampInt (x lo hi : Int) : Int := max lo (min hi x)

/-- `rne(y / d)` for `d > 0`: the nearest integer, and where y / d is halfway, the even one (00_scope.md R14). -/
def rneDiv (y d : Int) : Int :=
  let f := y / d
  let r := y % d
  if 2 * r < d then f
  else if d < 2 * r then f + 1
  else if f % 2 = 0 then f else f + 1

/-- `y = clamp(f32val(s) * f32val(g), -1, +1) * 32767` in units of 2^-298 (40_quantize.md R121 to R123). -/
def scaledUnits (s g : Word) : Int := clampInt (f32Units s * f32Units g) (-one298) one298 * 32767

/-- `Q(s, g, rm)` (40_quantize.md R120). `Int.tdiv` rounds toward zero (R124). -/
def quantize (s g : Word) (rm : Bool) : Int :=
  match f32class s with
  | .nan => 32767
  | .inf => if f32Sign s then -32767 else 32767
  | .finite => if rm then rneDiv (scaledUnits s g) one298 else (scaledUnits s g).tdiv one298

/-- The output frame of a PROCESS of `n` samples: `bits16(Q(IN_BUF[i], GAIN, RMODE))` for i = 0 to n-1
(41_commands.md R155). -/
def State.quantizedFrame (s : State) (n : Nat) : List Half :=
  (List.range n).map fun i => bits16 (quantize (s.inWord i) s.gain s.rmode)

end Sys2Proof.Machine
end

