-- ==== Sys2Proof/Machine/Commands.lean ====
section
/-! DEFINITION. The meanings of the commands (41_commands.md). -/

namespace Sys2Proof.Machine

/-- NOP: no register, event or status bit changes, in every delivery state (41_commands.md R152). -/
def execNop (s : State) : StepOutcome := .next s

/-- PROCESS: the admission checks in the order of 41_commands.md R153 (60_exceptions.md R204), then the empty frame
(R154) or the frame (R155). -/
def execProcess (n : Nat) (s : State) : StepOutcome :=
  if s.fatal then .next (s.reject .fatal)
  else if n = 0 then .next s.skipFrame
  else if s.pend then .next (s.reject .busy)
  else if s.cap.toNat < n then .next (s.reject .badLen)
  else if gainLegal s.gain = false then .next (s.reject .badGain)
  else .next (s.offerFrame (s.quantizedFrame n))

/-- SRESET: accepted in every delivery state (41_commands.md R160). -/
def execSreset (s : State) : StepOutcome := .next s.softReset

end Sys2Proof.Machine
end

