-- ==== Sys2Proof/Machine/Dispatch.lean ====
section
/-! DEFINITION. One arm per command. -/

namespace Sys2Proof.Machine

def exec (i : Instr) (s : State) : Host.Outcome State Fault Refusal :=
  match i with
  | .nop => Sys2Proof.Machine.execNop s
  | .process n => Sys2Proof.Machine.execProcess n s
  | .sreset => Sys2Proof.Machine.execSreset s

end Sys2Proof.Machine
end

