-- ==== Sys2Proof/Machine/Bus.lean ====
section
/-! DEFINITION. The Host's steps: submission of a command word, register writes and the bus access
(41_commands.md R150, 20_memory.md R65 to R68). -/

namespace Sys2Proof.Machine

/-- `Submit(w)`: an invalid word is rejected with `Decode`'s code, any other is performed (41_commands.md R150,
R151). -/
def submit (w : Word) (s : State) : StepOutcome :=
  match decode w with
  | .invalid e => .next (s.reject (.ofDecode e))
  | .command i => exec i s

/-- `RegWrite`: writes to ID, STATUS, FRAME_COUNT and CAP have no effect (20_memory.md R68). -/
def regWrite (r : Reg) (v : Word) (s : State) : StepOutcome :=
  match r with
  | .id => .next s
  | .ctrl => .next (s.writeCtrl v)
  | .gain => .next (s.writeGain v)
  | .status => .next s
  | .events => .next (s.ackEvents v)
  | .irqEn => .next (s.writeIrqEn v)
  | .cmd => submit v s
  | .frameCount => .next s
  | .cap => .next s

/-- `HostAccess(Read, off, size, -)`: no read has a side effect in the block (20_memory.md R65, R67). -/
def hostRead (off : Offset) (size : AccessSize) (s : State) : StepOutcome :=
  match busTarget s.cap.toNat off size with
  | .busError => .next (s.respond .error)
  | .reg r => .next (s.respond (.data (s.regRead r)))
  | .inWord i => .next (s.respond (.data (s.inWord i)))

/-- `HostAccess(Write, off, size, v)`: a rejected command completes with OKAY too (20_memory.md R65, R68). -/
def hostWrite (off : Offset) (size : AccessSize) (v : Word) (s : State) : StepOutcome :=
  match busTarget s.cap.toNat off size with
  | .busError => .next (s.respond .error)
  | .reg r => regWrite r v (s.respond .okay)
  | .inWord i => .next ((s.respond .okay).writeInWord i v)

/-- `HostAccess` (20_memory.md R65). -/
def hostAccess : HostAccess → State → StepOutcome
  | .read off size, s => hostRead off size s
  | .write off size v, s => hostWrite off size v s

end Sys2Proof.Machine
end

