-- ==== Sys2Proof/Machine/Handoff.lean ====
section
/-! DEFINITION. The Sink's steps (42_handoff.md R181 to R183). -/

namespace Sys2Proof.Machine

/-- The Sink's answer to the pending offer. With STATUS.PEND = 0 the Sink has no step: such a move does not exist
(42_handoff.md R181, log 4). -/
def sinkStep (a : SinkAnswer) (s : State) : StepOutcome :=
  if s.pend then
    match a with
    | .accept => .next s.deliver
    | .closed => .next s.closeStream
  else .fault .sinkWithoutOffer

end Sys2Proof.Machine
end

