-- ==== Sys2Proof/Machine/Step.lean ====
section
/-! DEFINITION. One atomic step of the machine: the next move of the agents. -/

namespace Sys2Proof.Machine

/-- One atomic step of one agent (00_scope.md R8). -/
def act : Action → State → StepOutcome
  | .host a, s => hostAccess a s
  | .sink a, s => sinkStep a s
  | .reset, s => .next s.hardReset

/-- The next move of the agents is performed. With no move to come nothing changes: the block takes no step of its own
(00_scope.md R8, log 3). -/
def step (s : State) : StepOutcome :=
  match s.pending with
  | [] => .next s
  | a :: rest => act a (s.withPending rest)

/-- The Host's next move writes this word to CMD: the block fetches nothing, and its commands come from the Host
(10_state.md R20, log 2). The moves already to come follow it. -/
def State.withFetchWord (s : State) (nbits w : Nat) : State :=
  s.withPending (Action.wr Reg.cmd.offset (BitVec.ofNat 32 (w % 2 ^ nbits)) :: s.pending)

end Sys2Proof.Machine
end

