-- ==== Sys2Proof/Machine/Rational.lean ====
section
/-! DEFINITION. The per-sample function in the words of spec/: exact rational arithmetic (00_scope.md R14, R15 and
40_quantize.md R120). The machine runs Quantize.lean's integers; that the two agree is stated, not assumed. -/

namespace Sys2Proof.Machine

/-- `(-1)^S`. -/
def f32SignQ (b : Word) : ℚ := if f32Sign b then -1 else 1

/-- `f32val(b)` of a Finite pattern (00_scope.md R15). -/
def f32val (b : Word) : ℚ :=
  if f32Exp b = 0 then f32SignQ b * ((f32Frac b : ℚ) / 2 ^ 23) * 2 ^ (-126 : ℤ)
  else f32SignQ b * (1 + (f32Frac b : ℚ) / 2 ^ 23) * 2 ^ ((f32Exp b : ℤ) - 127)

/-- `clamp(x, lo, hi) = max(lo, min(hi, x))` (00_scope.md R14). -/
def clampQ (x lo hi : ℚ) : ℚ := max lo (min hi x)

/-- `trunc(y)`: the integer part of `y` rounded toward zero (00_scope.md R14). -/
def truncQ (y : ℚ) : ℤ := if 0 ≤ y then ⌊y⌋ else ⌈y⌉

/-- `rne(y)`: the integer nearest to `y`, and where `y` is exactly halfway, the even one (00_scope.md R14). -/
def rneQ (y : ℚ) : ℤ :=
  if y - ⌊y⌋ < 1 / 2 then ⌊y⌋
  else if 1 / 2 < y - ⌊y⌋ then ⌊y⌋ + 1
  else if ⌊y⌋ % 2 = 0 then ⌊y⌋ else ⌊y⌋ + 1

/-- `y = clamp(f32val(s) * f32val(g), -1, +1) * 32767` (40_quantize.md R120). -/
def exactY (s g : Word) : ℚ := clampQ (f32val s * f32val g) (-1) 1 * 32767

/-- `Q(s, g, rm)` as 40_quantize.md R120 writes it. -/
def quantizeExact (s g : Word) (rm : Bool) : ℤ :=
  match f32class s with
  | .nan => 32767
  | .inf => if s.getLsbD 31 = false then 32767 else -32767
  | .finite => if rm = false then truncQ (exactY s g) else rneQ (exactY s g)

/-- The value of a pattern that is not NaN, the infinities below and above every number (40_quantize.md R134). A NaN
has no value and is given 0 here: a claim excludes it. -/
def f32ext (b : Word) : WithBot (WithTop ℚ) :=
  match f32class b with
  | .nan => ((0 : ℚ) : WithTop ℚ)
  | .inf => if f32Sign b then ⊥ else ((⊤ : WithTop ℚ) : WithBot (WithTop ℚ))
  | .finite => ((f32val b : ℚ) : WithTop ℚ)

end Sys2Proof.Machine
end

