-- ==== Sys2Proof/Safety.lean ====
section
/-! DEFINITION. The terms claims use: what a run shows, and the invariant of the machine. -/

namespace Sys2Proof.Machine

/-- The byte offset of a Host access. -/
def accessOffset : HostAccess → Offset
  | .read off _ => off
  | .write off _ _ => off

/-- The size of a Host access. -/
def accessSize : HostAccess → AccessSize
  | .read _ size => size
  | .write _ size _ => size

/-- The next state of an outcome, if it is one. -/
def nextState? : StepOutcome → Option State
  | .next s => some s
  | .fault _ => none
  | .refused _ => none

/-- The frame a step from `s` to `t` newly offers: the one that PEND's rise from 0 to 1 presents to the Sink
(42_handoff.md R180). -/
def newOffer (s t : State) : List Frame := if s.pend = false ∧ t.pend = true then [t.frame] else []

/-- The frames that the first `k` steps from `s` newly offer, the first offered first. -/
def offersIn : Nat → State → List Frame
  | 0, _ => []
  | k + 1, s =>
    match step s with
    | .next t => newOffer s t ++ offersIn k t
    | .fault _ => []
    | .refused _ => []

/-- The value that the next move writes to the register `r`, if it writes it. -/
def State.nextRegWrite? (s : State) (r : Reg) : Option Word :=
  match s.pending with
  | .host (.write off size v) :: _ =>
    if busTarget s.cap.toNat off size = .reg r then some v else none
  | _ => none

/-- The word that the next move submits as a command: the value of a 32-bit Host write to CMD (10_state.md R35). -/
def State.nextCommandWord? (s : State) : Option Word :=
  s.nextRegWrite? .cmd

/-- What `Decode` answers for the next move's command word, if it submits one. -/
def State.nextDecoded? (s : State) : Option Decoded := s.nextCommandWord?.map decode

/-- The next move submits the command `i`. -/
abbrev State.nextIsCommand (s : State) (i : Instr) : Prop := s.nextDecoded? = some (.command i)

/-- The next move performs a PROCESS of `n > 0` samples: it submits one, and 41_commands.md R153 admits it. -/
abbrev State.nextPerformsFrame (s : State) (n : Nat) : Prop :=
  s.nextIsCommand (.process n) ∧ s.fatal = false ∧ 0 < n ∧ s.pend = false ∧ n ≤ s.cap.toNat ∧
    gainLegal s.gain = true

/-- The cause for which the next move's command is rejected, if it is: the first in the order of
60_exceptions.md R204. -/
def State.nextRejection? (s : State) : Option RejectCode :=
  match s.nextDecoded? with
  | some (.invalid e) => some (.ofDecode e)
  | some (.command (.process n)) =>
    if s.fatal then some .fatal
    else if n = 0 then none
    else if s.pend then some .busy
    else if s.cap.toNat < n then some .badLen
    else if gainLegal s.gain then none
    else some .badGain
  | some (.command .nop) => none
  | some (.command .sreset) => none
  | none => none

/-- The next move is a hardware reset, or submits SRESET: one of the two resets (70_reset_and_hazards.md R230, R232). -/
abbrev State.nextResets (s : State) : Prop := s.pending.head? = some .reset ∨ s.nextIsCommand .sreset

/-- The next move performs a PROCESS of no samples (41_commands.md R154). -/
abbrev State.nextSkips (s : State) : Prop := s.nextIsCommand (.process 0) ∧ s.fatal = false

/-- The index of the IN_BUF word that the next move writes, if it writes one. -/
def State.nextInWord? (s : State) : Option Nat :=
  match s.pending with
  | .host (.write off size _) :: _ =>
    match busTarget s.cap.toNat off size with
    | .inWord i => some i
    | .reg _ => none
    | .busError => none
  | _ => none

/-- What every state after reset satisfies. -/
structure State.Inv (s : State) : Prop where
  /-- PEND = 1 with FATAL = 1 never occurs (10_state.md R43). -/
  notPendAndFatal : ¬ (s.pend = true ∧ s.fatal = true)
  /-- IN_BUF's bytes are in canonical form. -/
  memoryWf : Memory.wf s.cap.toNat s.inBuf
  /-- 1 <= NMAX (00_scope.md R9). -/
  capPos : 1 ≤ s.cap.toNat
  /-- ERRCODE values 7 to 15 are never written (60_exceptions.md R200). -/
  errcodeLe : s.errcode.toNat ≤ 6
  /-- Everything an offer carries has been written (42_handoff.md R180). -/
  olenLe : s.olen.toNat ≤ s.outBuf.length
  /-- OUT_BUF has NMAX elements (10_state.md R40). -/
  outBufLe : s.outBuf.length ≤ s.cap.toNat
  /-- OLEN is at least 1 while OFFERED or FAILED (42_handoff.md R185, 90_conflicts.md C11). -/
  olenPos : s.pend = true ∨ s.fatal = true → 0 < s.olen.toNat
  /-- The pattern 0x8000 never occurs (30_encoding.md R100). -/
  noMinimum : ∀ h ∈ s.outBuf, h ≠ 0x8000#16
  /-- Every delivered frame is non-empty and carries two bytes a sample (30_encoding.md R101, 42_handoff.md R185). -/
  streamFrames : ∀ f ∈ s.stream, 0 < f.len.toNat ∧ f.payload.length = 2 * f.len.toNat

end Sys2Proof.Machine
end

