-- ==== Sys2Proof/Certificates/Slice0/Obligations.lean ====
section
/-! DEFINITION. The statements for the provers. A statement says which rule of spec/ it formalises; where the spec
marks a rule "[derived: ...]" it is the spec's own inference, and where a clause rests on a choice of the model the
docstring names the log entry. -/

open Sys2Proof Sys2Proof.Machine

/-! ### Encoding -/

/-- Decode and encode agree on every well-formed command (30_encoding.md R90 to R94). -/
def Obligations.DecodeOfEncodeIsTheInstruction : Prop :=
  ∀ i : Instr, i.WellFormed → decode (encode i) = .command i

/-- The valid encodings in numbers, and no others (30_encoding.md R94, which the spec marks "[derived: from rule R91
and rule R93]"). -/
def Obligations.ValidCommandWordsAreExactlyThese : Prop :=
  (∀ w : Word, decode w = .command .nop ↔ w = 0x00000000#32) ∧
  (∀ w : Word, decode w = .command .sreset ↔ w = 0x00000002#32) ∧
  (∀ (w : Word) (n : Nat), decode w = .command (.process n) ↔
    n ≤ 65535 ∧ w = (BitVec.ofNat 32 n <<< 16) ||| 0x00000001#32) ∧
  (∀ w : Word, (∃ e, decode w = .invalid e) ↔
    ¬(w = 0x00000000#32 ∨ w = 0x00000002#32 ∨
      ∃ n, n ≤ 65535 ∧ w = (BitVec.ofNat 32 n <<< 16) ||| 0x00000001#32))

/-- Decoding, total on every word, by the arithmetic of the fields OP = w mod 16, RSVD = w / 16 mod 4096 and
LEN = w / 65536 (30_encoding.md R93). -/
def Obligations.DecodeOfEveryWordByItsFields : Prop :=
  ∀ w : Word,
    (2 < w.toNat % 16 → decode w = .invalid .badOp) ∧
    (w.toNat % 16 ≤ 2 → w.toNat / 16 % 4096 ≠ 0 → decode w = .invalid .rsvdBits) ∧
    (w.toNat % 16 = 0 → w.toNat / 16 % 4096 = 0 → w.toNat / 65536 ≠ 0 → decode w = .invalid .rsvdBits) ∧
    (w.toNat % 16 = 0 → w.toNat / 16 % 4096 = 0 → w.toNat / 65536 = 0 → decode w = .command .nop) ∧
    (w.toNat % 16 = 1 → w.toNat / 16 % 4096 = 0 → decode w = .command (.process (w.toNat / 65536))) ∧
    (w.toNat % 16 = 2 → w.toNat / 16 % 4096 = 0 → w.toNat / 65536 ≠ 0 → decode w = .invalid .rsvdBits) ∧
    (w.toNat % 16 = 2 → w.toNat / 16 % 4096 = 0 → w.toNat / 65536 = 0 → decode w = .command .sreset) ∧
    RejectCode.code (.ofDecode .badOp) = 1 ∧ RejectCode.code (.ofDecode .rsvdBits) = 2

/-- A word selects a row of the opcode map exactly when it decodes to a command, the row is that command's, and no
word selects two rows (30_encoding.md R91). -/
def Obligations.OpcodeMapAgreesWithDecode : Prop :=
  ∀ w : Word,
    (∀ i, decode w = .command i → i.row ∈ opcodeMap ∧ i.row.selects w = true) ∧
    (∀ r ∈ opcodeMap, r.selects w = true → ∃ i, decode w = .command i ∧ i.row = r) ∧
    (∀ r ∈ opcodeMap, ∀ q ∈ opcodeMap, r.selects w = true → q.selects w = true → r = q)

/-- A few words of 95_test_vectors.md section 3 (K1, K3 to K6, K8, K13) through the decoder on bytes. -/
def Obligations.SampleCommandWordsDecode : Prop :=
  decodeTableWord 32 0x00000000 = some .nop ∧
  decodeTableWord 32 0x00050001 = some (.process 5) ∧
  decodeTableWord 32 0xFFFF0001 = some (.process 65535) ∧
  decodeTableWord 32 0x00000002 = some .sreset ∧
  decode 0x00000003#32 = .invalid .badOp ∧
  decode 0x00000013#32 = .invalid .badOp ∧
  decode 0x00058001#32 = .invalid .rsvdBits

/-! ### Commands -/

/-- NOP completes in every state and changes nothing; a word with OP = 0 and any other bit set is no NOP
(41_commands.md R152). -/
def Obligations.NopCompletesAndChangesNothing : Prop :=
  (∀ s : State, exec .nop s = .next s) ∧ decode 0x00000000#32 = .command .nop ∧
  (∀ w : Word, w.toNat % 16 = 0 → w ≠ 0 → decode w = .invalid .rsvdBits)

/-- The admission of PROCESS, check by check in the spec's order, with what each outcome leaves (41_commands.md R153;
the codes are those of 60_exceptions.md R200, and the gain is legal when Finite with value >= 0). -/
def Obligations.ProcessAdmissionChecksInOrder : Prop :=
  ∀ (s : State) (n : Nat),
    (s.fatal = true → exec (.process n) s = .next { s with errcode := 3, events := s.events ||| 4 }) ∧
    (s.fatal = false → n = 0 → exec (.process n) s = .next { s with events := s.events ||| 2 }) ∧
    (s.fatal = false → 0 < n → s.pend = true →
      exec (.process n) s = .next { s with errcode := 4, events := s.events ||| 4 }) ∧
    (s.fatal = false → 0 < n → s.pend = false → s.cap.toNat < n →
      exec (.process n) s = .next { s with errcode := 5, events := s.events ||| 4 }) ∧
    (s.fatal = false → 0 < n → s.pend = false → n ≤ s.cap.toNat →
      ¬(f32class s.gain = .finite ∧ 0 ≤ f32val s.gain) →
      exec (.process n) s = .next { s with errcode := 6, events := s.events ||| 4 }) ∧
    (s.fatal = false → 0 < n → s.pend = false → n ≤ s.cap.toNat →
      f32class s.gain = .finite → 0 ≤ f32val s.gain →
      exec (.process n) s = .next { s with
        outBuf := (List.range n).map (fun i => bits16 (quantize (s.inWord i) s.gain s.rmode)) ++ s.outBuf.drop n
        olen := BitVec.ofNat 16 n, pend := true })

/-- PROCESS with n = 0 completes unless the stream has failed, in IDLE and in OFFERED and whatever GAIN holds, and
sets EVENTS.SKIPPED only (41_commands.md R154). -/
def Obligations.EmptyProcessOnlySetsSkipped : Prop :=
  (∀ s : State, s.fatal = false → exec (.process 0) s = .next { s with events := s.events ||| 2 }) ∧
  decode 0x00000001#32 = .command (.process 0)

/-- An admitted PROCESS of n samples completes: OUT_BUF[0..n-1] take the quantized samples, OLEN is n, PEND is 1 and
the frame is offered; every other element of OUT_BUF and every other piece of state is as before, IN_BUF byte by
byte (41_commands.md R155). -/
def Obligations.AdmittedProcessOffersTheQuantizedFrame : Prop :=
  ∀ (s : State) (n : Nat), s.fatal = false → s.pend = false → 0 < n → n ≤ s.cap.toNat →
    gainLegal s.gain = true →
    ∃ t, exec (.process n) s = .next t ∧
      (∀ i, i < n → t.outAt i = bits16 (quantize (s.inWord i) s.gain s.rmode)) ∧
      (∀ i, n ≤ i → t.outAt i = s.outAt i) ∧
      t.olen.toNat = n ∧ t.pend = true ∧ t.offer? = some t.frame ∧ t.frame.len = t.olen ∧
      t.fatal = false ∧ t.events = s.events ∧ t.errcode = s.errcode ∧ t.frameCount = s.frameCount ∧
      t.rmode = s.rmode ∧ t.gain = s.gain ∧ t.irqEn = s.irqEn ∧ t.cap = s.cap ∧
      (∀ a, t.inByte a = s.inByte a) ∧ (∀ i, t.inWritten i = s.inWritten i) ∧
      t.stream = s.stream ∧ t.draws = s.draws ∧ t.response = s.response ∧ t.pending = s.pending

/-- SRESET completes in every state with the writes of the spec and no other; IRQ is 0 after it; only its exact word
is SRESET; and apart from hardware reset it is the only way out of FAILED (41_commands.md R160). -/
def Obligations.SresetRestartsTheStream : Prop :=
  (∀ s : State, exec .sreset s =
    .next { s with pend := false, fatal := false, errcode := 0, olen := 0, events := 0, frameCount := 0 }) ∧
  (∀ s t : State, exec .sreset s = .next t → t.irq = false) ∧
  decode 0x00000002#32 = .command .sreset ∧
  (∀ w : Word, w.toNat % 16 = 2 → w ≠ 0x00000002#32 → decode w = .invalid .rsvdBits) ∧
  (∀ s t : State, step s = .next t → s.fatal = true → t.fatal = false →
    s.pending.head? = some .reset ∨ s.nextIsCommand .sreset)

/-- An invalid command word is rejected in every delivery state with Decode's code: ERRCODE and EVENTS.REJECTED are
written and nothing else of the block, and the bus answers OKAY (41_commands.md R151, 60_exceptions.md R201). -/
def Obligations.InvalidCommandWordIsRejected : Prop :=
  ∀ (s : State) (w : Word) (rest : List Action), s.pending = .wr 0x018#20 w :: rest →
    (decode w = .invalid .badOp → step s = .next { s with
      errcode := 1, events := s.events ||| 4, pending := rest, response := some .okay }) ∧
    (decode w = .invalid .rsvdBits → step s = .next { s with
      errcode := 2, events := s.events ||| 4, pending := rest, response := some .okay })

/-- The frame of every command (41_commands.md R152 to R155, R160; 60_exceptions.md R201): no command changes RMODE,
GAIN, IRQ_EN, CAP, a byte of IN_BUF or a written mark, the Sink's stream or the model's own fields; and only SRESET
changes FATAL or FRAME_COUNT, lowers PEND or clears an event. -/
def Obligations.CommandsLeaveTheRestUnchanged : Prop :=
  ∀ (i : Instr) (s t : State), exec i s = .next t →
    t.rmode = s.rmode ∧ t.gain = s.gain ∧ t.irqEn = s.irqEn ∧ t.cap = s.cap ∧
    (∀ a, t.inByte a = s.inByte a) ∧ (∀ k, t.inWritten k = s.inWritten k) ∧
    t.stream = s.stream ∧ t.draws = s.draws ∧ t.response = s.response ∧ t.pending = s.pending ∧
    (i ≠ .sreset → t.fatal = s.fatal ∧ t.frameCount = s.frameCount ∧ (s.pend = true → t.pend = true) ∧
      s.events &&& t.events = s.events)

/-- A sample of the frame depends on its own input word, GAIN and RMODE, and on nothing else of the state, not even on
the frame's length (10_state.md R44 and 41_commands.md R156, both marked "[derived: ...]" by the spec). -/
def Obligations.FrameSampleDependsOnItsInputGainAndModeOnly : Prop :=
  ∀ (s s' t t' : State) (n n' i : Nat),
    s.fatal = false → s.pend = false → n ≤ s.cap.toNat → gainLegal s.gain = true →
    s'.fatal = false → s'.pend = false → n' ≤ s'.cap.toNat →
    s.gain = s'.gain → s.rmode = s'.rmode → s.inWord i = s'.inWord i → i < n → i < n' →
    exec (.process n) s = .next t → exec (.process n') s' = .next t' →
    t.outAt i = t'.outAt i

/-- A pending event changes no later behaviour: whatever EVENTS holds, a command does the same to everything else
(60_exceptions.md R210, its last sentence). -/
def Obligations.EventsDoNotInfluenceCommands : Prop :=
  ∀ (i : Instr) (s t : State) (ev : BitVec 4), exec i s = .next t →
    ∃ ev', exec i { s with events := ev } = .next { t with events := ev' }

/-! ### The register bus -/

/-- An access of any size but 32 bits, a misaligned one and one to an unmapped offset complete with an ERROR response
and change no state of the block (20_memory.md R62, R63, R64). -/
def Obligations.UndefinedAccessGetsErrorAndChangesNothing : Prop :=
  ∀ (s : State) (a : HostAccess) (rest : List Action), s.pending = .host a :: rest →
    (accessSize a ≠ .bytes 4 ∨ (accessOffset a).toNat % 4 ≠ 0 ∨
      (0x24 ≤ (accessOffset a).toNat ∧ (accessOffset a).toNat < 0x40000) ∨
      0x40000 + 4 * s.cap.toNat ≤ (accessOffset a).toNat) →
    step s = .next { s with pending := rest, response := some .error }

/-- A register read answers the register's current value, assembled from its fields with reserved bits 0 and CMD as
0x00000000, and has no side effect (20_memory.md R67). -/
def Obligations.RegisterReadAnswersTheAssembledFields : Prop :=
  ∀ (s : State) (off : Offset) (rest : List Action), s.pending = .rd off :: rest →
    ∀ v : Word,
      ((off = 0x000#20 ∧ v = 0x46510007#32) ∨
       (off = 0x004#20 ∧ v.toNat = s.rmode.toNat) ∨
       (off = 0x008#20 ∧ v = s.gain) ∨
       (off = 0x00C#20 ∧ v.toNat =
          s.olen.toNat * 65536 + s.errcode.toNat * 256 + s.fatal.toNat * 2 + s.pend.toNat) ∨
       (off = 0x010#20 ∧ v.toNat = s.events.toNat) ∨
       (off = 0x014#20 ∧ v.toNat = s.irqEn.toNat) ∨
       (off = 0x018#20 ∧ v = 0x00000000#32) ∨
       (off = 0x01C#20 ∧ v = s.frameCount) ∨
       (off = 0x020#20 ∧ v.toNat = s.cap.toNat)) →
      step s = .next { s with pending := rest, response := some (.data v) }

/-- A register write has the effect of its row and no other, ignores the reserved bits of the value and is answered
OKAY in every case, a rejected command's included (20_memory.md R68). -/
def Obligations.RegisterWriteHasItsRowsEffect : Prop :=
  ∀ (s : State) (off : Offset) (v : Word) (rest : List Action), s.pending = .wr off v :: rest →
    ((off = 0x000#20 ∨ off = 0x00C#20 ∨ off = 0x01C#20 ∨ off = 0x020#20) →
      step s = .next { s with pending := rest, response := some .okay }) ∧
    (off = 0x004#20 → step s = .next { s with
      rmode := v.getLsbD 0, pending := rest, response := some .okay }) ∧
    (off = 0x008#20 → step s = .next { s with gain := v, pending := rest, response := some .okay }) ∧
    (off = 0x010#20 → ∃ ev : BitVec 4,
      (∀ k, k < 4 → ev.getLsbD k = (s.events.getLsbD k && !v.getLsbD k)) ∧
      step s = .next { s with events := ev, pending := rest, response := some .okay }) ∧
    (off = 0x014#20 → ∃ en : BitVec 4, (∀ k, k < 4 → en.getLsbD k = v.getLsbD k) ∧
      step s = .next { s with irqEn := en, pending := rest, response := some .okay }) ∧
    (off = 0x018#20 → step s = submit v { s with pending := rest, response := some .okay } ∧
      ∃ t, step s = .next t ∧ t.response = some .okay)

/-- IN_BUF[i] is written whole, byte k of the value at offset + k, marked written and read back unchanged, in every
delivery state; every other byte, mark and piece of state is as before; a read answers the word and changes nothing
(20_memory.md R66, and R69 for the byte lanes). -/
def Obligations.InBufAccessStoresAndReadsTheWord : Prop :=
  ∀ (s : State) (off : Offset) (i : Nat) (rest : List Action), i < s.cap.toNat → off.toNat = 0x40000 + 4 * i →
    (∀ v : Word, s.pending = .wr off v :: rest →
      ∃ t, step s = .next t ∧ t.inWord i = v ∧ t.inWritten i = true ∧
        (∀ k, k < 4 → t.inByte (off.toNat + k) = v.extractLsb' (8 * k) 8) ∧
        (∀ a, a < off.toNat ∨ off.toNat + 4 ≤ a → t.inByte a = s.inByte a) ∧
        (∀ j, j ≠ i → t.inWord j = s.inWord j ∧ t.inWritten j = s.inWritten j) ∧
        t = { s with inBuf := t.inBuf, pending := rest, response := some .okay }) ∧
    (s.pending = .rd off :: rest →
      step s = .next { s with pending := rest, response := some (.data (s.inWord i)) })

/-- No Host read has a side effect at any offset (20_memory.md R71, which the spec marks "[derived: ...]"; that the
answer is recorded in `response` is the model's, log 10). -/
def Obligations.HostReadsHaveNoSideEffect : Prop :=
  ∀ (s : State) (off : Offset) (size : AccessSize) (rest : List Action),
    s.pending = .host (.read off size) :: rest →
    ∃ r, step s = .next { s with pending := rest, response := some r }

/-! ### The Sink and the offer -/

/-- ACCEPT delivers the offered frame at the end of the Sink's stream, clears PEND, adds 1 to FRAME_COUNT modulo 2^32
and sets EVENTS.DELIVERED; nothing else changes (42_handoff.md R182). -/
def Obligations.SinkAcceptDeliversTheOfferedFrame : Prop :=
  ∀ (s : State) (rest : List Action), s.pending = .sink .accept :: rest → s.pend = true →
    ∃ t, step s = .next t ∧ s.offer? = some s.frame ∧ t.stream = s.stream ++ [s.frame] ∧
      t.frameCount.toNat = (s.frameCount.toNat + 1) % 2 ^ 32 ∧
      t = { s with
        pend := false, stream := t.stream, frameCount := t.frameCount, events := s.events ||| 1,
        pending := rest }

/-- CLOSED drops the frame, clears PEND, sets FATAL and EVENTS.SINKFAIL and changes nothing else, and nothing is
offered after it; while FATAL is 1 every PROCESS is rejected with FATAL, and FATAL stays 1 until SRESET or hardware
reset (42_handoff.md R183). -/
def Obligations.SinkClosedFailsTheStream : Prop :=
  (∀ (s : State) (rest : List Action), s.pending = .sink .closed :: rest → s.pend = true →
    ∃ t, step s = .next t ∧ t.offer? = none ∧
      t = { s with pend := false, fatal := true, events := s.events ||| 8, pending := rest }) ∧
  (∀ (s : State) (n : Nat), s.fatal = true →
    exec (.process n) s = .next { s with errcode := 3, events := s.events ||| 4 }) ∧
  (∀ s t : State, step s = .next t → s.fatal = true → ¬ s.nextResets → t.fatal = true)

/-- With PEND = 0 the Sink has no step (42_handoff.md R181). That such a move stops the model with this fault is the
model's choice (log 4). -/
def Obligations.SinkHasNoStepWithoutAnOffer : Prop :=
  ∀ (s : State) (a : SinkAnswer) (rest : List Action), s.pending = .sink a :: rest → s.pend = false →
    step s = .fault .sinkWithoutOffer

/-- The payload of an offer of OLEN samples: byte 2i is OUT_BUF[i][7:0] and byte 2i+1 is OUT_BUF[i][15:8], with no
header and no padding (30_encoding.md R101). -/
def Obligations.PayloadIsLittleEndianSamples : Prop :=
  ∀ s : State, s.frame.payload.length = 2 * s.olen.toNat ∧
    ∀ i, i < s.olen.toNat →
      s.frame.payload[2 * i]? = some ((s.outAt i).extractLsb' 0 8) ∧
      s.frame.payload[2 * i + 1]? = some ((s.outAt i).extractLsb' 8 8)

/-- While a frame is offered no step changes PEND, OLEN, OUT_BUF or the message, but the Sink's answer, SRESET and
hardware reset (10_state.md R41 and 41_commands.md R157, both marked "[derived: ...]" by the spec). -/
def Obligations.OfferIsStableUntilAnsweredOrReset : Prop :=
  ∀ s t : State, step s = .next t → s.pend = true →
    (∀ a, s.pending.head? ≠ some (.sink a)) → ¬ s.nextResets →
    t.pend = true ∧ t.olen = s.olen ∧ (∀ i, t.outAt i = s.outAt i) ∧ t.offer? = s.offer?

/-- Along every run the frames added to the Sink's stream, and then the one still offered, are offered frames in the
order they were offered, each at most once (42_handoff.md R184 and 20_memory.md R74, both marked "[derived: ...]" by
the spec). -/
def Obligations.DeliveredFramesAreOfferedFramesInOrder : Prop :=
  ∀ (k : Nat) (s t : State), Sys2Proof.core.run k s = .next t →
    ∃ d : List Frame, t.stream = s.stream ++ d ∧
      List.Sublist (d ++ t.offer?.toList) (s.offer?.toList ++ offersIn k s)

/-! ### Which step writes what -/

/-- PEND after a step: set by a performed PROCESS with n > 0; cleared by the Sink's answers, SRESET and hardware
reset; written by nothing else (10_state.md R28). -/
def Obligations.PendIsWrittenByItsRuleOnly : Prop :=
  ∀ s t : State, step s = .next t →
    (t.pend = true ↔
      (∃ n, s.nextPerformsFrame n) ∨
      (s.pend = true ∧ (∀ a, s.pending.head? ≠ some (.sink a)) ∧ ¬ s.nextResets))

/-- FATAL after a step: set by a Sink CLOSED, cleared only by SRESET and hardware reset (10_state.md R29). -/
def Obligations.FatalIsStickyUntilReset : Prop :=
  ∀ s t : State, step s = .next t →
    (t.fatal = true ↔ s.pending.head? = some (.sink .closed) ∨ (s.fatal = true ∧ ¬ s.nextResets))

/-- ERRCODE after a step: 0 after SRESET and hardware reset; the code of the first applicable cause after a rejection;
else unchanged (10_state.md R30, with the order of 60_exceptions.md R204). -/
def Obligations.ErrcodeHoldsTheLatestRejection : Prop :=
  ∀ s t : State, step s = .next t →
    (s.nextResets → t.errcode = 0) ∧
    (∀ c, s.nextRejection? = some c → t.errcode = c.code) ∧
    (¬ s.nextResets → s.nextRejection? = none → t.errcode = s.errcode)

/-- A step whose move submits a rejected command writes ERRCODE and EVENTS.REJECTED and nothing else of the block, and
the bus answers OKAY; the codes are those of the table (60_exceptions.md R201, R200; the model's own `pending` and
`response` are log 1 and log 10). -/
def Obligations.RejectionWritesErrcodeAndEventOnly : Prop :=
  (∀ (s : State) (c : RejectCode), s.nextRejection? = some c → step s = .next { s with
    errcode := c.code, events := s.events ||| 4, pending := s.pending.tail, response := some .okay }) ∧
  RejectCode.badOp.code = 1 ∧ RejectCode.rsvdBits.code = 2 ∧ RejectCode.fatal.code = 3 ∧
  RejectCode.busy.code = 4 ∧ RejectCode.badLen.code = 5 ∧ RejectCode.badGain.code = 6

/-- OLEN after a step: n after a performed PROCESS with n > 0; 0 after SRESET and hardware reset; else unchanged; and
while PEND = 1 it is the length of the offered frame (10_state.md R31). -/
def Obligations.OlenIsWrittenByItsRuleOnly : Prop :=
  ∀ s t : State, step s = .next t →
    (∀ n, s.nextPerformsFrame n → t.olen.toNat = n) ∧
    (s.nextResets → t.olen = 0) ∧
    ((∀ n, ¬ s.nextPerformsFrame n) → ¬ s.nextResets → t.olen = s.olen) ∧
    (t.pend = true → ∃ f, t.offer? = some f ∧ f.len = t.olen)

/-- FRAME_COUNT and the Sink's stream after a step: one more, modulo 2^32, and one frame more after a Sink ACCEPT;
FRAME_COUNT is 0 after SRESET and hardware reset, which leave the stream; else both are unchanged (10_state.md R36 for
FRAME_COUNT; 42_handoff.md R182 and R184, the latter marked "[derived: ...]" by the spec, for the stream; that a reset
leaves the stream is the model's reading, log 11). -/
def Obligations.FrameCountCountsAccepts : Prop :=
  ∀ s t : State, step s = .next t →
    (s.pending.head? = some (.sink .accept) →
      t.frameCount.toNat = (s.frameCount.toNat + 1) % 2 ^ 32 ∧ t.stream.length = s.stream.length + 1) ∧
    (s.nextResets → t.frameCount = 0 ∧ t.stream = s.stream) ∧
    (s.pending.head? ≠ some (.sink .accept) → ¬ s.nextResets →
      t.frameCount = s.frameCount ∧ t.stream = s.stream)

/-- CAP reads NMAX in bits [15:0] and 0 above, ID reads its constant, and no step changes either (10_state.md R37,
R24). -/
def Obligations.CapAndIdAreConstant : Prop :=
  State.reset.cap.toNat = Config.nmax ∧
  (∀ s : State, s.regRead .id = 0x46510007#32 ∧ (s.regRead .cap).toNat = s.cap.toNat) ∧
  (∀ s t : State, step s = .next t → t.cap = s.cap ∧ t.regRead .cap = s.regRead .cap)

/-- RMODE, GAIN and IRQ_EN after a step: the bits written by a 32-bit Host write to their register; the reset value
after a hardware reset; else unchanged, by SRESET too (10_state.md R25, R26, R33 and the table of R45). -/
def Obligations.ConfigurationIsWrittenByTheHostOnly : Prop :=
  ∀ s t : State, step s = .next t →
    (s.pending.head? = some .reset → t.rmode = false ∧ t.gain = 0x3F4CCCCD#32 ∧ t.irqEn = 0) ∧
    (s.pending.head? ≠ some .reset →
      t.rmode = ((s.nextRegWrite? .ctrl).map (fun v => v.getLsbD 0)).getD s.rmode ∧
      t.gain = (s.nextRegWrite? .gain).getD s.gain ∧
      t.irqEn = ((s.nextRegWrite? .irqEn).map (fun v => v.extractLsb' 0 4)).getD s.irqEn)

/-- A step newly sets at most one EVENTS bit, each by its own cause, and a set event is cleared only by a W1C write of
that bit, SRESET or hardware reset (10_state.md R32; 60_exceptions.md R205, which the spec marks "[derived: ...]"). -/
def Obligations.EventsAreSetByTheirCauseAndClearedByAck : Prop :=
  ∀ s t : State, step s = .next t →
    (∀ k, k < 4 → s.events.getLsbD k = true → t.events.getLsbD k = false →
      s.nextResets ∨ ∃ v, s.nextRegWrite? .events = some v ∧ v.getLsbD k = true) ∧
    (∀ k, k < 4 → s.events.getLsbD k = false → t.events.getLsbD k = true →
      (k = 0 ∧ s.pending.head? = some (.sink .accept)) ∨ (k = 1 ∧ s.nextSkips) ∨
      (k = 2 ∧ s.nextRejection?.isSome = true) ∨ (k = 3 ∧ s.pending.head? = some (.sink .closed)))

/-- The interrupt output is 1 exactly while some enabled event is pending; enabling a pending cause asserts it in the
same step and clearing the enable of every pending cause deasserts it without clearing the event (10_state.md R34;
60_exceptions.md R207, which the spec marks "[derived: ...]"). -/
def Obligations.IrqFollowsEventsAndEnables : Prop :=
  (∀ s : State, s.irq = true ↔ ∃ k, k < 4 ∧ s.events.getLsbD k = true ∧ s.irqEn.getLsbD k = true) ∧
  (∀ s t : State, ∀ v : Word, step s = .next t → s.nextRegWrite? .irqEn = some v →
    t.events = s.events ∧
    (t.irq = true ↔ ∃ k, k < 4 ∧ s.events.getLsbD k = true ∧ v.getLsbD k = true))

/-- A step that is no hardware reset and does not write IN_BUF[i] leaves word i, its bytes and its mark as they are,
written or not; a hardware reset clears every mark, and each word then holds the free draw of that reset
(10_state.md R42; that the draw is a constant applied to a counter is the model's form, log 7). -/
def Obligations.InBufWordIsFixedUntilWritten : Prop :=
  ∀ s t : State, step s = .next t →
    (∀ i, s.pending.head? ≠ some .reset → s.nextInWord? ≠ some i →
      t.inWord i = s.inWord i ∧ t.inWritten i = s.inWritten i ∧
      ∀ k, k < 4 → t.inByte (0x40000 + 4 * i + k) = s.inByte (0x40000 + 4 * i + k)) ∧
    (s.pending.head? = some .reset →
      ∀ i, t.inWritten i = false ∧ t.inWord i = Config.inBufDraw t.draws i)

/-! ### Reset and the invariant -/

/-- What the registers read right after reset (10_state.md R45, first column), with NMAX within 1 to 65535
(00_scope.md R9). That the Sink's stream, the draw counter, the last response and the coming moves start empty or at 0
is not stated: those are the model's choices. -/
def Obligations.ResetLeavesTheSpecsRegisterValues : Prop :=
  State.reset.regRead .id = 0x46510007#32 ∧ State.reset.regRead .ctrl = 0 ∧
  State.reset.regRead .gain = 0x3F4CCCCD#32 ∧ State.reset.regRead .status = 0 ∧
  State.reset.regRead .events = 0 ∧ State.reset.regRead .irqEn = 0 ∧ State.reset.regRead .cmd = 0 ∧
  State.reset.regRead .frameCount = 0 ∧ (State.reset.regRead .cap).toNat = Config.nmax ∧
  1 ≤ Config.nmax ∧ Config.nmax ≤ 65535 ∧ State.reset.irq = false ∧
  State.reset.delivery? = some .idle ∧ State.reset.offer? = none ∧ ∀ i, State.reset.inWritten i = false

/-- A hardware reset, possible in every state, sets every register to its reset value, clears every written mark,
withdraws a pending offer undelivered and leaves IRQ at 0 (70_reset_and_hazards.md R230; that the Sink's stream is as
before is the model's reading, log 11). -/
def Obligations.HardwareResetSetsTheResetValues : Prop :=
  ∀ (s : State) (rest : List Action), s.pending = .reset :: rest →
    ∃ t, step s = .next t ∧
      (∀ r, r ≠ .cap → t.regRead r = State.reset.regRead r) ∧ t.cap = s.cap ∧
      t.rmode = false ∧ t.gain = 0x3F4CCCCD#32 ∧ t.pend = false ∧ t.fatal = false ∧ t.errcode = 0 ∧
      t.olen = 0 ∧ t.events = 0 ∧ t.irqEn = 0 ∧ t.frameCount = 0 ∧
      (∀ i, t.inWritten i = false) ∧ t.offer? = none ∧ t.stream = s.stream ∧ t.irq = false ∧
      t.pending = rest

/-- The machine's invariant holds right after reset. -/
def Obligations.ResetSatisfiesTheInvariant : Prop := State.reset.Inv

/-- Every step from a state that satisfies the invariant leaves a state that does: PEND and FATAL never both
(10_state.md R43), IN_BUF in canonical form, ERRCODE within 0 to 6 (60_exceptions.md R200), OLEN within what OUT_BUF
holds and at least 1 while OFFERED or FAILED, no 0x8000 in OUT_BUF (30_encoding.md R100), and only whole non-empty
frames in the Sink's stream (42_handoff.md R185). -/
def Obligations.EveryStepKeepsTheInvariant : Prop :=
  ∀ s t : State, s.Inv → step s = .next t → t.Inv

/-! ### Steps -/

/-- A step whose move submits the word of a command runs that command, on the state with the move taken and the bus
answering OKAY (41_commands.md R150; `pending` and `response` are the model's, log 1 and log 10). -/
def Obligations.StepRunsTheDecodedCommand : Prop :=
  ∀ (s : State) (w : Word) (i : Instr) (rest : List Action),
    s.pending = .wr 0x018#20 w :: rest → decode w = .command i →
    step s = exec i { s with pending := rest, response := some .okay }

/-- The step after a command's word is placed runs that command (the model's own interface, log 2). -/
def Obligations.PlacedCommandWordRunsNext : Prop :=
  ∀ (s : State) (nbits w : Nat) (i : Instr), decodeTableWord nbits w = some i →
    step (s.withFetchWord nbits w) = exec i { s with response := some .okay }

/-- With no move to come nothing changes: every state change of the block is part of an agent's step (00_scope.md R8;
that a step is taken at all is the model's choice, log 3). -/
def Obligations.NothingChangesWithoutAnAgentsMove : Prop :=
  ∀ s : State, s.pending = [] → step s = .next s

/-- The only stop of the machine is a Sink move without an offer: every Host access, every command and every reset has
its outcome in every state (93_implementation_defined.md section 2; the stop is log 4). -/
def Obligations.OnlyASinkMoveWithoutOfferStops : Prop :=
  ∀ s : State, (∃ t, step s = .next t) ∨
    (step s = .fault .sinkWithoutOffer ∧ s.pend = false ∧ ∃ a, s.pending.head? = some (.sink a))

/-- The aperture: BASE is a multiple of 2^20, and the bus address of an offset names that offset and no other
(00_scope.md R10, 20_memory.md R60; accesses carry the offset, log 6). -/
def Obligations.ApertureAddressesNameOffsets : Prop :=
  Config.base % 0x100000 = 0 ∧ (∀ off : Offset, offsetOfAddress (addressOfOffset off) = some off) ∧
  (∀ (a : Nat) (off : Offset), offsetOfAddress a = some off → addressOfOffset off = a)

/-! ### Data encodings and the per-sample function -/

/-- Two's complement of 16 bits (00_scope.md R16). -/
def Obligations.Int16EncodingIsTwosComplement : Prop :=
  (∀ k : Int, -32768 ≤ k → k ≤ 32767 →
    ((bits16 k).toNat : Int) = k % 65536 ∧ int16 (bits16 k) = k) ∧
  (∀ b : Half, int16 b = (if b.toNat < 32768 then (b.toNat : Int) else b.toNat - 65536) ∧
    bits16 (int16 b) = b)

/-- Every finite binary32 value is the model's integer of units of 2^-149 (00_scope.md R15; the units are the model's
form, log 14), and the reset gain is 13421773 / 16777216 (10_state.md R26). -/
def Obligations.FiniteValuesAreMultiplesOfTheSmallestSubnormal : Prop :=
  (∀ b : Word, f32class b = .finite → f32val b = (f32Units b : ℚ) / 2 ^ 149) ∧
  f32class 0x3F4CCCCD#32 = .finite ∧ f32val 0x3F4CCCCD#32 = 13421773 / 16777216

/-- A gain is legal when it is Finite with value >= 0: both zeros are, every NaN, every infinity and every negative
non-zero value is not (10_state.md R26, 41_commands.md R153). -/
def Obligations.LegalGainIsFiniteAndNonNegative : Prop :=
  (∀ g : Word, gainLegal g = true ↔ f32class g = .finite ∧ 0 ≤ f32val g) ∧
  gainLegal 0x00000000#32 = true ∧ gainLegal 0x80000000#32 = true

/-- The machine's integer Q is the spec's Q on exact rationals, for every sample, every legal gain and both modes,
with the rule's example (40_quantize.md R120). -/
def Obligations.QuantizeIsTheExactRationalFunction : Prop :=
  (∀ (s g : Word) (rm : Bool), f32class g = .finite → 0 ≤ f32val g →
    quantize s g rm = quantizeExact s g rm) ∧
  quantize 0x3F800000#32 0x3F4CCCCD#32 false = 26213 ∧ quantize 0x3F800000#32 0x3F4CCCCD#32 true = 26214

/-- Every NaN pattern, of either sign, quiet or signalling, gives +32767, whatever the gain and the mode
(40_quantize.md R126). -/
def Obligations.NanSampleGivesPositiveFullScale : Prop :=
  ∀ (s g : Word) (rm : Bool), (s.extractLsb' 23 8).toNat = 255 → (s.extractLsb' 0 23).toNat ≠ 0 →
    quantize s g rm = 32767

/-- +infinity gives +32767 and -infinity gives -32767, whatever the gain, zero included (40_quantize.md R128). -/
def Obligations.InfiniteSampleGivesFullScaleOfItsSign : Prop :=
  ∀ (g : Word) (rm : Bool),
    quantize 0x7F800000#32 g rm = 32767 ∧ quantize 0xFF800000#32 g rm = -32767

/-- The output range, and that 0x8000 never occurs (40_quantize.md R127 and 30_encoding.md R100, both marked
"[derived: ...]" by the spec). -/
def Obligations.QuantizedValueStaysInRange : Prop :=
  ∀ (s g : Word) (rm : Bool), gainLegal g = true →
    -32767 ≤ quantize s g rm ∧ quantize s g rm ≤ 32767 ∧
    int16 (bits16 (quantize s g rm)) = quantize s g rm ∧ bits16 (quantize s g rm) ≠ 0x8000#16

/-- The sign of a sample that is not NaN flips the result exactly (40_quantize.md R133, which the spec marks
"[derived: ...]"). -/
def Obligations.NegatedSampleGivesNegatedValue : Prop :=
  ∀ (s g : Word) (rm : Bool), f32class s ≠ .nan → gainLegal g = true →
    quantize (s ^^^ 0x80000000#32) g rm = - quantize s g rm

/-- A larger sample never gives a smaller value (40_quantize.md R134, which the spec marks "[derived: ...]"). -/
def Obligations.QuantizeIsMonotonic : Prop :=
  ∀ (s1 s2 g : Word) (rm : Bool), f32class s1 ≠ .nan → f32class s2 ≠ .nan → gainLegal g = true →
    f32ext s1 ≤ f32ext s2 → quantize s1 g rm ≤ quantize s2 g rm

/-- A product at or beyond +-1 saturates to +-32767 (40_quantize.md R135, which the spec marks "[derived: ...]"). -/
def Obligations.ProductBeyondOneSaturates : Prop :=
  ∀ (s g : Word) (rm : Bool), f32class s = .finite → gainLegal g = true →
    (1 ≤ f32val s * f32val g → quantize s g rm = 32767) ∧
    (f32val s * f32val g ≤ -1 → quantize s g rm = -32767)

/-- The two rounding modes differ by at most one, and for a finite sample exactly when the fraction of |y| is at least
1/2, rounding half to even then being one farther from zero; a NaN or infinity gives the same in both (40_quantize.md
R136, which the spec marks "[derived: ...]"). -/
def Obligations.RoundingModesDifferByAtMostOne : Prop :=
  ∀ s g : Word, gainLegal g = true →
    |quantize s g true - quantize s g false| ≤ 1 ∧
    (f32class s = .finite →
      ((1 : ℚ) / 2 ≤ Int.fract |exactY s g| → |quantize s g true| = |quantize s g false| + 1) ∧
      (Int.fract |exactY s g| < (1 : ℚ) / 2 → quantize s g true = quantize s g false)) ∧
    (f32class s ≠ .finite → quantize s g true = quantize s g false)

/-- A halfway value of y occurs only at clipped = +1/2 and -1/2, and gives +16384 and -16384 when rounded half to even
and +16383 and -16383 when truncated (40_quantize.md R124, R125). -/
def Obligations.HalfwayOnlyAtClippedOneHalf : Prop :=
  ∀ s g : Word, f32class s = .finite → gainLegal g = true → Int.fract |exactY s g| = (1 : ℚ) / 2 →
    (clampQ (f32val s * f32val g) (-1) 1 = 1 / 2 ∧
      quantize s g true = 16384 ∧ quantize s g false = 16383) ∨
    (clampQ (f32val s * f32val g) (-1) 1 = -(1 / 2) ∧
      quantize s g true = -16384 ∧ quantize s g false = -16383)

/-- With a gain of zero, of either sign, every finite sample gives 0 (40_quantize.md R131, which the spec marks
"[derived: ...]"). -/
def Obligations.ZeroGainSilencesFiniteSamples : Prop :=
  ∀ (s g : Word) (rm : Bool), f32class s = .finite → (g = 0x00000000#32 ∨ g = 0x80000000#32) →
    quantize s g rm = 0

/-- Zeros give 0; |y| < 1 gives 0 when truncated; rounded half to even it gives 0 below 1/2 and +-1 above, and 1/2 does
not occur (40_quantize.md R129, which the spec marks "[derived: ...]"). -/
def Obligations.SmallValuesRoundToZeroOrOne : Prop :=
  ∀ s g : Word, f32class s = .finite → gainLegal g = true →
    (f32val s = 0 → ∀ rm, quantize s g rm = 0) ∧
    (|exactY s g| < 1 → quantize s g false = 0) ∧
    (|exactY s g| < 1 / 2 → quantize s g true = 0) ∧
    (1 / 2 < exactY s g → exactY s g < 1 → quantize s g true = 1) ∧
    (-1 < exactY s g → exactY s g < -(1 / 2) → quantize s g true = -1) ∧
    |exactY s g| ≠ 1 / 2
end

