-- ==== Sys2Proof/Laws/State.lean ====
section
/-! SUPPORT. One lemma per field per state update of Ops.lean, so that no proof unfolds a record update. -/

namespace Sys2Proof.Machine

variable (s : State)

/-! ### reject -/

@[simp] theorem State.reject_rmode (c : RejectCode) : (s.reject c).rmode = s.rmode := rfl
@[simp] theorem State.reject_gain (c : RejectCode) : (s.reject c).gain = s.gain := rfl
@[simp] theorem State.reject_pend (c : RejectCode) : (s.reject c).pend = s.pend := rfl
@[simp] theorem State.reject_fatal (c : RejectCode) : (s.reject c).fatal = s.fatal := rfl
@[simp] theorem State.reject_errcode (c : RejectCode) : (s.reject c).errcode = c.code := rfl
@[simp] theorem State.reject_olen (c : RejectCode) : (s.reject c).olen = s.olen := rfl
@[simp] theorem State.reject_events (c : RejectCode) : (s.reject c).events = setEvent s.events .rejected := rfl
@[simp] theorem State.reject_irqEn (c : RejectCode) : (s.reject c).irqEn = s.irqEn := rfl
@[simp] theorem State.reject_frameCount (c : RejectCode) : (s.reject c).frameCount = s.frameCount := rfl
@[simp] theorem State.reject_cap (c : RejectCode) : (s.reject c).cap = s.cap := rfl
@[simp] theorem State.reject_inBuf (c : RejectCode) : (s.reject c).inBuf = s.inBuf := rfl
@[simp] theorem State.reject_outBuf (c : RejectCode) : (s.reject c).outBuf = s.outBuf := rfl
@[simp] theorem State.reject_stream (c : RejectCode) : (s.reject c).stream = s.stream := rfl
@[simp] theorem State.reject_draws (c : RejectCode) : (s.reject c).draws = s.draws := rfl
@[simp] theorem State.reject_response (c : RejectCode) : (s.reject c).response = s.response := rfl
@[simp] theorem State.reject_pending (c : RejectCode) : (s.reject c).pending = s.pending := rfl

/-! ### ackEvents -/

@[simp] theorem State.ackEvents_rmode (v : Word) : (s.ackEvents v).rmode = s.rmode := rfl
@[simp] theorem State.ackEvents_gain (v : Word) : (s.ackEvents v).gain = s.gain := rfl
@[simp] theorem State.ackEvents_pend (v : Word) : (s.ackEvents v).pend = s.pend := rfl
@[simp] theorem State.ackEvents_fatal (v : Word) : (s.ackEvents v).fatal = s.fatal := rfl
@[simp] theorem State.ackEvents_errcode (v : Word) : (s.ackEvents v).errcode = s.errcode := rfl
@[simp] theorem State.ackEvents_olen (v : Word) : (s.ackEvents v).olen = s.olen := rfl
@[simp] theorem State.ackEvents_events (v : Word) : (s.ackEvents v).events = clearEvents s.events v := rfl
@[simp] theorem State.ackEvents_irqEn (v : Word) : (s.ackEvents v).irqEn = s.irqEn := rfl
@[simp] theorem State.ackEvents_frameCount (v : Word) : (s.ackEvents v).frameCount = s.frameCount := rfl
@[simp] theorem State.ackEvents_cap (v : Word) : (s.ackEvents v).cap = s.cap := rfl
@[simp] theorem State.ackEvents_inBuf (v : Word) : (s.ackEvents v).inBuf = s.inBuf := rfl
@[simp] theorem State.ackEvents_outBuf (v : Word) : (s.ackEvents v).outBuf = s.outBuf := rfl
@[simp] theorem State.ackEvents_stream (v : Word) : (s.ackEvents v).stream = s.stream := rfl
@[simp] theorem State.ackEvents_draws (v : Word) : (s.ackEvents v).draws = s.draws := rfl
@[simp] theorem State.ackEvents_response (v : Word) : (s.ackEvents v).response = s.response := rfl
@[simp] theorem State.ackEvents_pending (v : Word) : (s.ackEvents v).pending = s.pending := rfl

/-! ### skipFrame -/

@[simp] theorem State.skipFrame_rmode : s.skipFrame.rmode = s.rmode := rfl
@[simp] theorem State.skipFrame_gain : s.skipFrame.gain = s.gain := rfl
@[simp] theorem State.skipFrame_pend : s.skipFrame.pend = s.pend := rfl
@[simp] theorem State.skipFrame_fatal : s.skipFrame.fatal = s.fatal := rfl
@[simp] theorem State.skipFrame_errcode : s.skipFrame.errcode = s.errcode := rfl
@[simp] theorem State.skipFrame_olen : s.skipFrame.olen = s.olen := rfl
@[simp] theorem State.skipFrame_events : s.skipFrame.events = setEvent s.events .skipped := rfl
@[simp] theorem State.skipFrame_irqEn : s.skipFrame.irqEn = s.irqEn := rfl
@[simp] theorem State.skipFrame_frameCount : s.skipFrame.frameCount = s.frameCount := rfl
@[simp] theorem State.skipFrame_cap : s.skipFrame.cap = s.cap := rfl
@[simp] theorem State.skipFrame_inBuf : s.skipFrame.inBuf = s.inBuf := rfl
@[simp] theorem State.skipFrame_outBuf : s.skipFrame.outBuf = s.outBuf := rfl
@[simp] theorem State.skipFrame_stream : s.skipFrame.stream = s.stream := rfl
@[simp] theorem State.skipFrame_draws : s.skipFrame.draws = s.draws := rfl
@[simp] theorem State.skipFrame_response : s.skipFrame.response = s.response := rfl
@[simp] theorem State.skipFrame_pending : s.skipFrame.pending = s.pending := rfl

/-! ### offerFrame -/

@[simp] theorem State.offerFrame_rmode (f : List Half) : (s.offerFrame f).rmode = s.rmode := rfl
@[simp] theorem State.offerFrame_gain (f : List Half) : (s.offerFrame f).gain = s.gain := rfl
@[simp] theorem State.offerFrame_pend (f : List Half) : (s.offerFrame f).pend = true := rfl
@[simp] theorem State.offerFrame_fatal (f : List Half) : (s.offerFrame f).fatal = s.fatal := rfl
@[simp] theorem State.offerFrame_errcode (f : List Half) : (s.offerFrame f).errcode = s.errcode := rfl
@[simp] theorem State.offerFrame_olen (f : List Half) : (s.offerFrame f).olen = BitVec.ofNat 16 f.length := rfl
@[simp] theorem State.offerFrame_events (f : List Half) : (s.offerFrame f).events = s.events := rfl
@[simp] theorem State.offerFrame_irqEn (f : List Half) : (s.offerFrame f).irqEn = s.irqEn := rfl
@[simp] theorem State.offerFrame_frameCount (f : List Half) : (s.offerFrame f).frameCount = s.frameCount := rfl
@[simp] theorem State.offerFrame_cap (f : List Half) : (s.offerFrame f).cap = s.cap := rfl
@[simp] theorem State.offerFrame_inBuf (f : List Half) : (s.offerFrame f).inBuf = s.inBuf := rfl
@[simp] theorem State.offerFrame_outBuf (f : List Half) : (s.offerFrame f).outBuf = f ++ s.outBuf.drop f.length := rfl
@[simp] theorem State.offerFrame_stream (f : List Half) : (s.offerFrame f).stream = s.stream := rfl
@[simp] theorem State.offerFrame_draws (f : List Half) : (s.offerFrame f).draws = s.draws := rfl
@[simp] theorem State.offerFrame_response (f : List Half) : (s.offerFrame f).response = s.response := rfl
@[simp] theorem State.offerFrame_pending (f : List Half) : (s.offerFrame f).pending = s.pending := rfl

/-! ### softReset -/

@[simp] theorem State.softReset_rmode : s.softReset.rmode = s.rmode := rfl
@[simp] theorem State.softReset_gain : s.softReset.gain = s.gain := rfl
@[simp] theorem State.softReset_pend : s.softReset.pend = false := rfl
@[simp] theorem State.softReset_fatal : s.softReset.fatal = false := rfl
@[simp] theorem State.softReset_errcode : s.softReset.errcode = 0 := rfl
@[simp] theorem State.softReset_olen : s.softReset.olen = 0 := rfl
@[simp] theorem State.softReset_events : s.softReset.events = 0 := rfl
@[simp] theorem State.softReset_irqEn : s.softReset.irqEn = s.irqEn := rfl
@[simp] theorem State.softReset_frameCount : s.softReset.frameCount = 0 := rfl
@[simp] theorem State.softReset_cap : s.softReset.cap = s.cap := rfl
@[simp] theorem State.softReset_inBuf : s.softReset.inBuf = s.inBuf := rfl
@[simp] theorem State.softReset_outBuf : s.softReset.outBuf = s.outBuf := rfl
@[simp] theorem State.softReset_stream : s.softReset.stream = s.stream := rfl
@[simp] theorem State.softReset_draws : s.softReset.draws = s.draws := rfl
@[simp] theorem State.softReset_response : s.softReset.response = s.response := rfl
@[simp] theorem State.softReset_pending : s.softReset.pending = s.pending := rfl

/-! ### hardReset -/

@[simp] theorem State.hardReset_rmode : s.hardReset.rmode = false := rfl
@[simp] theorem State.hardReset_gain : s.hardReset.gain = 0x3F4CCCCD#32 := rfl
@[simp] theorem State.hardReset_pend : s.hardReset.pend = false := rfl
@[simp] theorem State.hardReset_fatal : s.hardReset.fatal = false := rfl
@[simp] theorem State.hardReset_errcode : s.hardReset.errcode = 0 := rfl
@[simp] theorem State.hardReset_olen : s.hardReset.olen = 0 := rfl
@[simp] theorem State.hardReset_events : s.hardReset.events = 0 := rfl
@[simp] theorem State.hardReset_irqEn : s.hardReset.irqEn = 0 := rfl
@[simp] theorem State.hardReset_frameCount : s.hardReset.frameCount = 0 := rfl
@[simp] theorem State.hardReset_cap : s.hardReset.cap = s.cap := rfl
@[simp] theorem State.hardReset_inBuf : s.hardReset.inBuf = [] := rfl
@[simp] theorem State.hardReset_outBuf : s.hardReset.outBuf = [] := rfl
@[simp] theorem State.hardReset_stream : s.hardReset.stream = s.stream := rfl
@[simp] theorem State.hardReset_draws : s.hardReset.draws = s.draws + 1 := rfl
@[simp] theorem State.hardReset_response : s.hardReset.response = s.response := rfl
@[simp] theorem State.hardReset_pending : s.hardReset.pending = s.pending := rfl

/-! ### deliver -/

@[simp] theorem State.deliver_rmode : s.deliver.rmode = s.rmode := rfl
@[simp] theorem State.deliver_gain : s.deliver.gain = s.gain := rfl
@[simp] theorem State.deliver_pend : s.deliver.pend = false := rfl
@[simp] theorem State.deliver_fatal : s.deliver.fatal = s.fatal := rfl
@[simp] theorem State.deliver_errcode : s.deliver.errcode = s.errcode := rfl
@[simp] theorem State.deliver_olen : s.deliver.olen = s.olen := rfl
@[simp] theorem State.deliver_events : s.deliver.events = setEvent s.events .delivered := rfl
@[simp] theorem State.deliver_irqEn : s.deliver.irqEn = s.irqEn := rfl
@[simp] theorem State.deliver_frameCount : s.deliver.frameCount = s.frameCount + 1 := rfl
@[simp] theorem State.deliver_cap : s.deliver.cap = s.cap := rfl
@[simp] theorem State.deliver_inBuf : s.deliver.inBuf = s.inBuf := rfl
@[simp] theorem State.deliver_outBuf : s.deliver.outBuf = s.outBuf := rfl
@[simp] theorem State.deliver_stream : s.deliver.stream = s.stream ++ [s.frame] := rfl
@[simp] theorem State.deliver_draws : s.deliver.draws = s.draws := rfl
@[simp] theorem State.deliver_response : s.deliver.response = s.response := rfl
@[simp] theorem State.deliver_pending : s.deliver.pending = s.pending := rfl

/-! ### closeStream -/

@[simp] theorem State.closeStream_rmode : s.closeStream.rmode = s.rmode := rfl
@[simp] theorem State.closeStream_gain : s.closeStream.gain = s.gain := rfl
@[simp] theorem State.closeStream_pend : s.closeStream.pend = false := rfl
@[simp] theorem State.closeStream_fatal : s.closeStream.fatal = true := rfl
@[simp] theorem State.closeStream_errcode : s.closeStream.errcode = s.errcode := rfl
@[simp] theorem State.closeStream_olen : s.closeStream.olen = s.olen := rfl
@[simp] theorem State.closeStream_events : s.closeStream.events = setEvent s.events .sinkfail := rfl
@[simp] theorem State.closeStream_irqEn : s.closeStream.irqEn = s.irqEn := rfl
@[simp] theorem State.closeStream_frameCount : s.closeStream.frameCount = s.frameCount := rfl
@[simp] theorem State.closeStream_cap : s.closeStream.cap = s.cap := rfl
@[simp] theorem State.closeStream_inBuf : s.closeStream.inBuf = s.inBuf := rfl
@[simp] theorem State.closeStream_outBuf : s.closeStream.outBuf = s.outBuf := rfl
@[simp] theorem State.closeStream_stream : s.closeStream.stream = s.stream := rfl
@[simp] theorem State.closeStream_draws : s.closeStream.draws = s.draws := rfl
@[simp] theorem State.closeStream_response : s.closeStream.response = s.response := rfl
@[simp] theorem State.closeStream_pending : s.closeStream.pending = s.pending := rfl

/-! ### writeCtrl -/

@[simp] theorem State.writeCtrl_rmode (v : Word) : (s.writeCtrl v).rmode = v.getLsbD 0 := rfl
@[simp] theorem State.writeCtrl_gain (v : Word) : (s.writeCtrl v).gain = s.gain := rfl
@[simp] theorem State.writeCtrl_pend (v : Word) : (s.writeCtrl v).pend = s.pend := rfl
@[simp] theorem State.writeCtrl_fatal (v : Word) : (s.writeCtrl v).fatal = s.fatal := rfl
@[simp] theorem State.writeCtrl_errcode (v : Word) : (s.writeCtrl v).errcode = s.errcode := rfl
@[simp] theorem State.writeCtrl_olen (v : Word) : (s.writeCtrl v).olen = s.olen := rfl
@[simp] theorem State.writeCtrl_events (v : Word) : (s.writeCtrl v).events = s.events := rfl
@[simp] theorem State.writeCtrl_irqEn (v : Word) : (s.writeCtrl v).irqEn = s.irqEn := rfl
@[simp] theorem State.writeCtrl_frameCount (v : Word) : (s.writeCtrl v).frameCount = s.frameCount := rfl
@[simp] theorem State.writeCtrl_cap (v : Word) : (s.writeCtrl v).cap = s.cap := rfl
@[simp] theorem State.writeCtrl_inBuf (v : Word) : (s.writeCtrl v).inBuf = s.inBuf := rfl
@[simp] theorem State.writeCtrl_outBuf (v : Word) : (s.writeCtrl v).outBuf = s.outBuf := rfl
@[simp] theorem State.writeCtrl_stream (v : Word) : (s.writeCtrl v).stream = s.stream := rfl
@[simp] theorem State.writeCtrl_draws (v : Word) : (s.writeCtrl v).draws = s.draws := rfl
@[simp] theorem State.writeCtrl_response (v : Word) : (s.writeCtrl v).response = s.response := rfl
@[simp] theorem State.writeCtrl_pending (v : Word) : (s.writeCtrl v).pending = s.pending := rfl

/-! ### writeGain -/

@[simp] theorem State.writeGain_rmode (v : Word) : (s.writeGain v).rmode = s.rmode := rfl
@[simp] theorem State.writeGain_gain (v : Word) : (s.writeGain v).gain = v := rfl
@[simp] theorem State.writeGain_pend (v : Word) : (s.writeGain v).pend = s.pend := rfl
@[simp] theorem State.writeGain_fatal (v : Word) : (s.writeGain v).fatal = s.fatal := rfl
@[simp] theorem State.writeGain_errcode (v : Word) : (s.writeGain v).errcode = s.errcode := rfl
@[simp] theorem State.writeGain_olen (v : Word) : (s.writeGain v).olen = s.olen := rfl
@[simp] theorem State.writeGain_events (v : Word) : (s.writeGain v).events = s.events := rfl
@[simp] theorem State.writeGain_irqEn (v : Word) : (s.writeGain v).irqEn = s.irqEn := rfl
@[simp] theorem State.writeGain_frameCount (v : Word) : (s.writeGain v).frameCount = s.frameCount := rfl
@[simp] theorem State.writeGain_cap (v : Word) : (s.writeGain v).cap = s.cap := rfl
@[simp] theorem State.writeGain_inBuf (v : Word) : (s.writeGain v).inBuf = s.inBuf := rfl
@[simp] theorem State.writeGain_outBuf (v : Word) : (s.writeGain v).outBuf = s.outBuf := rfl
@[simp] theorem State.writeGain_stream (v : Word) : (s.writeGain v).stream = s.stream := rfl
@[simp] theorem State.writeGain_draws (v : Word) : (s.writeGain v).draws = s.draws := rfl
@[simp] theorem State.writeGain_response (v : Word) : (s.writeGain v).response = s.response := rfl
@[simp] theorem State.writeGain_pending (v : Word) : (s.writeGain v).pending = s.pending := rfl

/-! ### writeIrqEn -/

@[simp] theorem State.writeIrqEn_rmode (v : Word) : (s.writeIrqEn v).rmode = s.rmode := rfl
@[simp] theorem State.writeIrqEn_gain (v : Word) : (s.writeIrqEn v).gain = s.gain := rfl
@[simp] theorem State.writeIrqEn_pend (v : Word) : (s.writeIrqEn v).pend = s.pend := rfl
@[simp] theorem State.writeIrqEn_fatal (v : Word) : (s.writeIrqEn v).fatal = s.fatal := rfl
@[simp] theorem State.writeIrqEn_errcode (v : Word) : (s.writeIrqEn v).errcode = s.errcode := rfl
@[simp] theorem State.writeIrqEn_olen (v : Word) : (s.writeIrqEn v).olen = s.olen := rfl
@[simp] theorem State.writeIrqEn_events (v : Word) : (s.writeIrqEn v).events = s.events := rfl
@[simp] theorem State.writeIrqEn_irqEn (v : Word) : (s.writeIrqEn v).irqEn = v.extractLsb' 0 4 := rfl
@[simp] theorem State.writeIrqEn_frameCount (v : Word) : (s.writeIrqEn v).frameCount = s.frameCount := rfl
@[simp] theorem State.writeIrqEn_cap (v : Word) : (s.writeIrqEn v).cap = s.cap := rfl
@[simp] theorem State.writeIrqEn_inBuf (v : Word) : (s.writeIrqEn v).inBuf = s.inBuf := rfl
@[simp] theorem State.writeIrqEn_outBuf (v : Word) : (s.writeIrqEn v).outBuf = s.outBuf := rfl
@[simp] theorem State.writeIrqEn_stream (v : Word) : (s.writeIrqEn v).stream = s.stream := rfl
@[simp] theorem State.writeIrqEn_draws (v : Word) : (s.writeIrqEn v).draws = s.draws := rfl
@[simp] theorem State.writeIrqEn_response (v : Word) : (s.writeIrqEn v).response = s.response := rfl
@[simp] theorem State.writeIrqEn_pending (v : Word) : (s.writeIrqEn v).pending = s.pending := rfl

/-! ### writeInWord -/

@[simp] theorem State.writeInWord_rmode (i : Nat) (v : Word) : (s.writeInWord i v).rmode = s.rmode := rfl
@[simp] theorem State.writeInWord_gain (i : Nat) (v : Word) : (s.writeInWord i v).gain = s.gain := rfl
@[simp] theorem State.writeInWord_pend (i : Nat) (v : Word) : (s.writeInWord i v).pend = s.pend := rfl
@[simp] theorem State.writeInWord_fatal (i : Nat) (v : Word) : (s.writeInWord i v).fatal = s.fatal := rfl
@[simp] theorem State.writeInWord_errcode (i : Nat) (v : Word) : (s.writeInWord i v).errcode = s.errcode := rfl
@[simp] theorem State.writeInWord_olen (i : Nat) (v : Word) : (s.writeInWord i v).olen = s.olen := rfl
@[simp] theorem State.writeInWord_events (i : Nat) (v : Word) : (s.writeInWord i v).events = s.events := rfl
@[simp] theorem State.writeInWord_irqEn (i : Nat) (v : Word) : (s.writeInWord i v).irqEn = s.irqEn := rfl
@[simp] theorem State.writeInWord_frameCount (i : Nat) (v : Word) : (s.writeInWord i v).frameCount = s.frameCount := rfl
@[simp] theorem State.writeInWord_cap (i : Nat) (v : Word) : (s.writeInWord i v).cap = s.cap := rfl
@[simp] theorem State.writeInWord_inBuf (i : Nat) (v : Word) : (s.writeInWord i v).inBuf = s.inBuf.writeWord (inOffset i) v := rfl
@[simp] theorem State.writeInWord_outBuf (i : Nat) (v : Word) : (s.writeInWord i v).outBuf = s.outBuf := rfl
@[simp] theorem State.writeInWord_stream (i : Nat) (v : Word) : (s.writeInWord i v).stream = s.stream := rfl
@[simp] theorem State.writeInWord_draws (i : Nat) (v : Word) : (s.writeInWord i v).draws = s.draws := rfl
@[simp] theorem State.writeInWord_response (i : Nat) (v : Word) : (s.writeInWord i v).response = s.response := rfl
@[simp] theorem State.writeInWord_pending (i : Nat) (v : Word) : (s.writeInWord i v).pending = s.pending := rfl

/-! ### respond -/

@[simp] theorem State.respond_rmode (r : Response) : (s.respond r).rmode = s.rmode := rfl
@[simp] theorem State.respond_gain (r : Response) : (s.respond r).gain = s.gain := rfl
@[simp] theorem State.respond_pend (r : Response) : (s.respond r).pend = s.pend := rfl
@[simp] theorem State.respond_fatal (r : Response) : (s.respond r).fatal = s.fatal := rfl
@[simp] theorem State.respond_errcode (r : Response) : (s.respond r).errcode = s.errcode := rfl
@[simp] theorem State.respond_olen (r : Response) : (s.respond r).olen = s.olen := rfl
@[simp] theorem State.respond_events (r : Response) : (s.respond r).events = s.events := rfl
@[simp] theorem State.respond_irqEn (r : Response) : (s.respond r).irqEn = s.irqEn := rfl
@[simp] theorem State.respond_frameCount (r : Response) : (s.respond r).frameCount = s.frameCount := rfl
@[simp] theorem State.respond_cap (r : Response) : (s.respond r).cap = s.cap := rfl
@[simp] theorem State.respond_inBuf (r : Response) : (s.respond r).inBuf = s.inBuf := rfl
@[simp] theorem State.respond_outBuf (r : Response) : (s.respond r).outBuf = s.outBuf := rfl
@[simp] theorem State.respond_stream (r : Response) : (s.respond r).stream = s.stream := rfl
@[simp] theorem State.respond_draws (r : Response) : (s.respond r).draws = s.draws := rfl
@[simp] theorem State.respond_response (r : Response) : (s.respond r).response = some r := rfl
@[simp] theorem State.respond_pending (r : Response) : (s.respond r).pending = s.pending := rfl

/-! ### withPending -/

@[simp] theorem State.withPending_rmode (p : List Action) : (s.withPending p).rmode = s.rmode := rfl
@[simp] theorem State.withPending_gain (p : List Action) : (s.withPending p).gain = s.gain := rfl
@[simp] theorem State.withPending_pend (p : List Action) : (s.withPending p).pend = s.pend := rfl
@[simp] theorem State.withPending_fatal (p : List Action) : (s.withPending p).fatal = s.fatal := rfl
@[simp] theorem State.withPending_errcode (p : List Action) : (s.withPending p).errcode = s.errcode := rfl
@[simp] theorem State.withPending_olen (p : List Action) : (s.withPending p).olen = s.olen := rfl
@[simp] theorem State.withPending_events (p : List Action) : (s.withPending p).events = s.events := rfl
@[simp] theorem State.withPending_irqEn (p : List Action) : (s.withPending p).irqEn = s.irqEn := rfl
@[simp] theorem State.withPending_frameCount (p : List Action) : (s.withPending p).frameCount = s.frameCount := rfl
@[simp] theorem State.withPending_cap (p : List Action) : (s.withPending p).cap = s.cap := rfl
@[simp] theorem State.withPending_inBuf (p : List Action) : (s.withPending p).inBuf = s.inBuf := rfl
@[simp] theorem State.withPending_outBuf (p : List Action) : (s.withPending p).outBuf = s.outBuf := rfl
@[simp] theorem State.withPending_stream (p : List Action) : (s.withPending p).stream = s.stream := rfl
@[simp] theorem State.withPending_draws (p : List Action) : (s.withPending p).draws = s.draws := rfl
@[simp] theorem State.withPending_response (p : List Action) : (s.withPending p).response = s.response := rfl
@[simp] theorem State.withPending_pending (p : List Action) : (s.withPending p).pending = p := rfl

end Sys2Proof.Machine
end

