-- ==== Sys2Proof/Laws/Memory.lean ====
section
/-! SUPPORT. The laws of IN_BUF: read after write, every other byte left alone, the canonical form kept. -/

namespace Sys2Proof.Machine

/-! ### Bytes and words -/

/-- Reading a word's four bytes back gives the word (20_memory.md R69). -/
theorem wordOfBytes_byteOf (v : Word) :
    wordOfBytes (byteOf v 0) (byteOf v 1) (byteOf v 2) (byteOf v 3) = v := by
  apply BitVec.eq_of_getLsbD_eq
  intro i hi
  simp only [wordOfBytes, byteOf, BitVec.getLsbD_append, BitVec.getLsbD_extractLsb']
  rcases (by omega : i < 8 ∨ (8 ≤ i ∧ i < 16) ∨ (16 ≤ i ∧ i < 24) ∨ (24 ≤ i ∧ i < 32)) with h | h | h | h
  · simp [h]
  · rw [if_neg (by omega), if_pos (by omega)]
    simp [show i - 8 < 8 by omega, show 8 + (i - 8) = i by omega]
  · rw [if_neg (by omega), if_neg (by omega), if_pos (by omega)]
    simp [show i - 8 - 8 < 8 by omega, show 16 + (i - 8 - 8) = i by omega]
  · rw [if_neg (by omega), if_neg (by omega), if_neg (by omega)]
    simp [show i - 8 - 8 - 8 < 8 by omega, show 24 + (i - 8 - 8 - 8) = i by omega]

/-- Each byte of a word made of four bytes is the one given (20_memory.md R69). -/
theorem byteOf_wordOfBytes (b0 b1 b2 b3 : Byte) :
    byteOf (wordOfBytes b0 b1 b2 b3) 0 = b0 ∧ byteOf (wordOfBytes b0 b1 b2 b3) 1 = b1 ∧
      byteOf (wordOfBytes b0 b1 b2 b3) 2 = b2 ∧ byteOf (wordOfBytes b0 b1 b2 b3) 3 = b3 := by
  refine ⟨?_, ?_, ?_, ?_⟩ <;>
  · apply BitVec.eq_of_getLsbD_eq
    intro i hi
    simp only [wordOfBytes, byteOf, BitVec.getLsbD_append, BitVec.getLsbD_extractLsb']
    repeat' split
    all_goals first
      | omega
      | (simp_all; done)
      | (simp only [hi, decide_true, Bool.true_and]; congr 1; omega)

/-! ### One byte -/

/-- A byte written reads back, and every other byte reads as before. -/
theorem Memory.read?_write (m : Memory) (a : Nat) (b : Byte) (x : Nat) :
    (m.write a b).read? x = if x = a then some b else m.read? x := by
  induction m with
  | nil => simp [Memory.write, Memory.read?]
  | cons c m ih =>
    obtain ⟨k, c⟩ := c
    simp only [Memory.write]
    split
    · simp [Memory.read?]
    · split
      · subst a; by_cases h : x = k <;> simp [Memory.read?, h]
      · by_cases h : x = k
        · subst x; simp [Memory.read?, Ne.symm ‹¬a = k›]
        · simp [Memory.read?, h, ih]

/-- The offsets listed after a write are the one written and those listed before. -/
theorem Memory.mem_write {m : Memory} {a : Nat} {b : Byte} {c : Host.Cell} (h : c ∈ m.write a b) :
    c.1 = a ∨ c ∈ m := by
  induction m with
  | nil => simp [Memory.write] at h; simp [h]
  | cons d m ih =>
    obtain ⟨k, d⟩ := d
    simp only [Memory.write] at h
    split at h
    · rcases List.mem_cons.1 h with rfl | h
      · exact .inl rfl
      · exact .inr h
    · split at h
      · rcases List.mem_cons.1 h with rfl | h
        · exact .inl rfl
        · exact .inr (List.mem_cons_of_mem _ h)
      · rcases List.mem_cons.1 h with rfl | h
        · exact .inr List.mem_cons_self
        · exact (ih h).imp_right (List.mem_cons_of_mem _)

/-- A write keeps the offsets strictly rising. -/
theorem Memory.write_rising {m : Memory} (a : Nat) (b : Byte) (h : m.Rising) : (m.write a b).Rising := by
  induction m with
  | nil => simp [Memory.write, Memory.Rising]
  | cons d m ih =>
    obtain ⟨k, d⟩ := d
    have hk : ∀ x ∈ m.map Prod.fst, k < x := (List.pairwise_cons.1 h).1
    have hm : Memory.Rising m := (List.pairwise_cons.1 h).2
    simp only [Memory.write]
    split
    · refine List.pairwise_cons.2 ⟨fun x hx => ?_, h⟩
      rcases List.mem_cons.1 hx with rfl | hx
      · assumption
      · exact lt_trans ‹a < k› (hk x hx)
    · split
      · subst a; exact List.pairwise_cons.2 ⟨hk, hm⟩
      · refine List.pairwise_cons.2 ⟨fun x hx => ?_, ih hm⟩
        obtain ⟨c, hc, rfl⟩ := List.mem_map.1 hx
        rcases Memory.mem_write hc with h1 | h1
        · omega
        · exact hk _ (List.mem_map_of_mem h1)

/-- A listed byte is stored. -/
theorem Memory.read?_isSome_of_mem {m : Memory} {c : Host.Cell} (h : c ∈ m) : (m.read? c.1).isSome = true := by
  induction m with
  | nil => cases h
  | cons d m ih =>
    obtain ⟨k, d⟩ := d
    simp only [Memory.read?]
    split
    · rfl
    · rcases List.mem_cons.1 h with rfl | h
      · exact absurd rfl ‹_›
      · exact ih h

/-! ### One word -/

/-- A word written at `a` is its four bytes at `a` to `a + 3`; every other byte reads as before. -/
theorem Memory.read?_writeWord (m : Memory) (a : Nat) (v : Word) (x : Nat) :
    (m.writeWord a v).read? x = if a ≤ x ∧ x < a + 4 then some (byteOf v (x - a)) else m.read? x := by
  simp only [Memory.writeWord, Memory.read?_write]
  by_cases h3 : x = a + 3
  · subst h3; simp
  by_cases h2 : x = a + 2
  · subst h2; simp
  by_cases h1 : x = a + 1
  · subst h1; simp
  by_cases h0 : x = a
  · subst h0; simp
  · rw [if_neg h3, if_neg h2, if_neg h1, if_neg h0, if_neg (by omega)]

/-- The offsets listed after a word write are its four and those listed before. -/
theorem Memory.mem_writeWord {m : Memory} {a : Nat} {v : Word} {c : Host.Cell} (h : c ∈ m.writeWord a v) :
    (a ≤ c.1 ∧ c.1 < a + 4) ∨ c ∈ m := by
  rcases Memory.mem_write h with h | h
  · exact .inl (by omega)
  rcases Memory.mem_write h with h | h
  · exact .inl (by omega)
  rcases Memory.mem_write h with h | h
  · exact .inl (by omega)
  rcases Memory.mem_write h with h | h
  · exact .inl (by omega)
  · exact .inr h

/-- A word write inside the window keeps the canonical form. -/
theorem Memory.writeWord_wf {m : Memory} {nmax i : Nat} (v : Word) (hi : i < nmax) (h : m.wf nmax) :
    (m.writeWord (inOffset i) v).wf nmax := by
  obtain ⟨hr, hw, hc⟩ := h
  refine ⟨?_, fun c hmem => ?_, fun c hmem k hk => ?_⟩
  · exact Memory.write_rising _ _ (Memory.write_rising _ _ (Memory.write_rising _ _ (Memory.write_rising _ _ hr)))
  · rcases Memory.mem_writeWord hmem with h | h
    · simp only [inOffset] at h; omega
    · exact hw c h
  · have hk4 : k < 4 := List.mem_range.1 hk
    rw [Memory.read?_writeWord]
    split
    · rfl
    · rcases Memory.mem_writeWord hmem with h | h
      · simp only [inOffset, inBase] at *; omega
      · exact hc c h k hk

/-! ### IN_BUF -/

/-- After `IN_BUF[i] <- v` the bytes of word `i` are `v`'s, and every other byte reads as before. -/
theorem State.inByte_writeInWord (s : State) (i : Nat) (v : Word) (a : Nat) :
    (s.writeInWord i v).inByte a =
      if inOffset i ≤ a ∧ a < inOffset i + 4 then byteOf v (a - inOffset i) else s.inByte a := by
  simp only [State.inByte, State.writeInWord_inBuf, State.writeInWord_draws, Memory.read?_writeWord]
  split <;> simp

/-- `IN_BUF[i]` reads back what was written, and every other word reads as before (20_memory.md R66). -/
theorem State.inWord_writeInWord (s : State) (i : Nat) (v : Word) (j : Nat) :
    (s.writeInWord i v).inWord j = if j = i then v else s.inWord j := by
  simp only [State.inWord, State.inByte_writeInWord]
  by_cases h : j = i
  · subst h
    simp only [le_refl, true_and, if_true, Nat.lt_add_right_iff_pos, Nat.le_add_right, Nat.add_lt_add_iff_left,
      Nat.sub_self, Nat.add_sub_cancel_left]
    simp [wordOfBytes_byteOf]
  · have hne : ∀ k, k < 4 → ¬(inOffset i ≤ inOffset j + k ∧ inOffset j + k < inOffset i + 4) := by
      intro k hk; simp only [inOffset]; omega
    have h0 := hne 0 (by omega)
    simp only [Nat.add_zero] at h0
    rw [if_neg h0, if_neg (hne 1 (by omega)), if_neg (hne 2 (by omega)), if_neg (hne 3 (by omega)), if_neg h]

/-- Writing `IN_BUF[i]` marks word `i` written and changes no other mark (20_memory.md R66). -/
theorem State.inWritten_writeInWord (s : State) (i : Nat) (v : Word) (j : Nat) :
    (s.writeInWord i v).inWritten j = (decide (j = i) || s.inWritten j) := by
  simp only [State.inWritten, State.writeInWord_inBuf, Memory.read?_writeWord, inOffset]
  by_cases h : j = i
  · subst h; simp
  · rw [if_neg (by omega)]; simp [h]

/-- A byte of IN_BUF depends on the written bytes and the draw alone. -/
theorem State.inByte_congr {s t : State} (hm : t.inBuf = s.inBuf) (hd : t.draws = s.draws) (a : Nat) :
    t.inByte a = s.inByte a := by
  simp only [State.inByte, hm, hd]

/-- A word of IN_BUF depends on the written bytes and the draw alone. -/
theorem State.inWord_congr {s t : State} (hm : t.inBuf = s.inBuf) (hd : t.draws = s.draws) (i : Nat) :
    t.inWord i = s.inWord i := by
  simp only [State.inWord, State.inByte_congr hm hd]

end Sys2Proof.Machine
end

