-- ==== Sys2Proof/Laws/Commands.lean ====
section
/-! SUPPORT. What the commands can do, said once. -/

namespace Sys2Proof.Machine

/-! ### OUT_BUF and the frame -/

/-- A frame has one element a sample (41_commands.md R156). -/
@[simp] theorem State.quantizedFrame_length (s : State) (n : Nat) : (s.quantizedFrame n).length = n := by
  simp [State.quantizedFrame]

/-- Element `i` of a frame is the quantized sample `i`. -/
theorem State.quantizedFrame_getElem? (s : State) {n i : Nat} (h : i < n) :
    (s.quantizedFrame n)[i]? = some (bits16 (quantize (s.inWord i) s.gain s.rmode)) := by
  simp [State.quantizedFrame, h]

/-- After a frame is offered OUT_BUF holds it in its leading elements; the others keep their values. -/
theorem State.outAt_offerFrame (s : State) (f : List Half) (i : Nat) :
    (s.offerFrame f).outAt i = if i < f.length then f.getD i 0 else s.outAt i := by
  simp only [State.outAt, State.offerFrame_outBuf, State.offerFrame_draws, List.getD_eq_getElem?_getD]
  split
  · simp [List.getElem?_append_left, *]
  · rw [List.getElem?_append_right (by omega), List.getElem?_drop]
    congr 2
    omega

/-- OUT_BUF's written elements after a frame is offered. -/
theorem State.length_outBuf_offerFrame (s : State) (f : List Half) :
    (s.offerFrame f).outBuf.length = max f.length s.outBuf.length := by
  simp only [State.offerFrame_outBuf, List.length_append, List.length_drop]
  omega

/-- The payload has two bytes a sample (30_encoding.md R101). -/
theorem State.length_frame_payload (s : State) : s.frame.payload.length = 2 * s.olen.toNat := by
  have h : ∀ l : List Half, (l.flatMap pcmBytes).length = 2 * l.length := fun l => by
    induction l with
    | nil => rfl
    | cons a l ih => simp only [List.flatMap_cons, List.length_append, ih, List.length_cons, pcmBytes]; simp; omega
  simp [State.frame, State.samples, h]

/-- The offered message depends on OLEN, OUT_BUF and the draw alone. -/
theorem State.frame_congr {s t : State} (hl : t.olen = s.olen) (ho : t.outBuf = s.outBuf)
    (hd : t.draws = s.draws) : t.frame = s.frame := by
  have h : t.outAt = s.outAt := funext fun i => by simp only [State.outAt, ho, hd]
  simp only [State.frame, State.samples, hl, h]

/-! ### PROCESS -/

/-- Everything PROCESS can do, each case with all that leads to it (41_commands.md R153 to R155). -/
theorem execProcess_cases (n : Nat) (s : State) :
    (s.fatal = true ∧ execProcess n s = .next (s.reject .fatal)) ∨
    (s.fatal = false ∧ n = 0 ∧ execProcess n s = .next s.skipFrame) ∨
    (s.fatal = false ∧ 0 < n ∧ s.pend = true ∧ execProcess n s = .next (s.reject .busy)) ∨
    (s.fatal = false ∧ 0 < n ∧ s.pend = false ∧ s.cap.toNat < n ∧
      execProcess n s = .next (s.reject .badLen)) ∨
    (s.fatal = false ∧ 0 < n ∧ s.pend = false ∧ n ≤ s.cap.toNat ∧ gainLegal s.gain = false ∧
      execProcess n s = .next (s.reject .badGain)) ∨
    (s.fatal = false ∧ 0 < n ∧ s.pend = false ∧ n ≤ s.cap.toNat ∧ gainLegal s.gain = true ∧
      execProcess n s = .next (s.offerFrame (s.quantizedFrame n))) := by
  unfold execProcess
  by_cases hf : s.fatal = true
  · exact .inl ⟨hf, by rw [if_pos hf]⟩
  by_cases hn : n = 0
  · exact .inr (.inl ⟨by simpa using hf, hn, by rw [if_neg hf, if_pos hn]⟩)
  by_cases hp : s.pend = true
  · exact .inr (.inr (.inl ⟨by simpa using hf, by omega, hp, by rw [if_neg hf, if_neg hn, if_pos hp]⟩))
  by_cases hl : s.cap.toNat < n
  · exact .inr (.inr (.inr (.inl ⟨by simpa using hf, by omega, by simpa using hp, hl,
      by rw [if_neg hf, if_neg hn, if_neg hp, if_pos hl]⟩)))
  by_cases hg : gainLegal s.gain = false
  · exact .inr (.inr (.inr (.inr (.inl ⟨by simpa using hf, by omega, by simpa using hp, by omega, hg,
      by rw [if_neg hf, if_neg hn, if_neg hp, if_neg hl, if_pos hg]⟩))))
  · exact .inr (.inr (.inr (.inr (.inr ⟨by simpa using hf, by omega, by simpa using hp, by omega,
      by simpa using hg, by rw [if_neg hf, if_neg hn, if_neg hp, if_neg hl, if_neg hg]⟩))))

/-! ### Any command -/

/-- The states a command can leave. -/
inductive CommandEffect (s : State) : State → Prop where
  | nop : CommandEffect s s
  | reject (c : RejectCode) : CommandEffect s (s.reject c)
  | skip : s.fatal = false → CommandEffect s s.skipFrame
  | offer (n : Nat) : s.fatal = false → s.pend = false → 0 < n → n ≤ s.cap.toNat → gainLegal s.gain = true →
      CommandEffect s (s.offerFrame (s.quantizedFrame n))
  | softReset : CommandEffect s s.softReset

/-- Every command completes, with one of these effects (93_implementation_defined.md section 2: every command has
one outcome given the state). -/
theorem exec_effect (i : Instr) (s : State) : ∃ t, exec i s = .next t ∧ CommandEffect s t := by
  cases i with
  | nop => exact ⟨s, rfl, .nop⟩
  | process n =>
    rcases execProcess_cases n s with ⟨_, h⟩ | ⟨h0, _, h⟩ | ⟨_, _, _, h⟩ | ⟨_, _, _, _, h⟩ | ⟨_, _, _, _, _, h⟩ |
      ⟨h0, h1, h2, h3, h4, h⟩
    · exact ⟨_, h, .reject _⟩
    · exact ⟨_, h, .skip h0⟩
    · exact ⟨_, h, .reject _⟩
    · exact ⟨_, h, .reject _⟩
    · exact ⟨_, h, .reject _⟩
    · exact ⟨_, h, .offer n h0 h2 h1 h3 h4⟩
  | sreset => exact ⟨_, rfl, .softReset⟩

end Sys2Proof.Machine
end

