-- ==== Sys2Proof/Laws/Step.lean ====
section
/-! SUPPORT. What a bus access and a step can do, said once. -/

namespace Sys2Proof.Machine

/-! ### The bus -/

/-- A register is at its own offset and at no other (10_state.md R23). -/
theorem Reg.ofOffset_eq_some {off : Offset} {r : Reg} : Reg.ofOffset off = some r ↔ off = r.offset := by
  constructor
  · intro h
    have := List.find?_some h
    simpa using (of_decide_eq_true this).symm
  · rintro rfl
    cases r <;> decide

/-- A register access is a 32-bit access at the register's offset. -/
theorem busTarget_eq_reg {nmax : Nat} {off : Offset} {size : AccessSize} {r : Reg} :
    busTarget nmax off size = .reg r ↔ size = .bytes 4 ∧ off = r.offset := by
  constructor
  · intro h
    unfold busTarget at h
    split at h; · cases h
    split at h; · cases h
    split at h
    · rename_i hs _ _ r' hr
      cases h
      refine ⟨?_, Reg.ofOffset_eq_some.1 hr⟩
      cases size with
      | bytes n => simpa [AccessSize.isWord] using hs
      | partialEnables => simp [AccessSize.isWord] at hs
    · split at h <;> cases h
  · rintro ⟨rfl, rfl⟩
    cases r <;> rfl

/-- An IN_BUF access is a 32-bit access at a word's offset inside the window. -/
theorem busTarget_eq_inWord {nmax : Nat} {off : Offset} {size : AccessSize} {i : Nat}
    (h : busTarget nmax off size = .inWord i) : size = .bytes 4 ∧ off.toNat = inOffset i ∧ i < nmax := by
  unfold busTarget at h
  split at h; · cases h
  split at h; · cases h
  split at h; · cases h
  split at h
  · rename_i hs ha _ _ hw
    cases h
    refine ⟨?_, ?_, ?_⟩
    · cases size with
      | bytes n => simpa [AccessSize.isWord] using hs
      | partialEnables => simp [AccessSize.isWord] at hs
    · simp only [inOffset, inBase] at *; omega
    · simp only [inBase] at *; omega
  · cases h

/-- The states a Host access can leave; the answer of the bus is part of each. -/
inductive HostEffect (a : HostAccess) (s : State) : State → Prop where
  /-- An access the block does not define (20_memory.md R62 to R64). -/
  | error : HostEffect a s (s.respond .error)
  /-- Any read (20_memory.md R66, R67). -/
  | read (off : Offset) (size : AccessSize) (v : Word) : a = .read off size → HostEffect a s (s.respond (.data v))
  /-- A write to a read-only register (20_memory.md R68). -/
  | ignored (off : Offset) (size : AccessSize) (v : Word) : a = .write off size v →
      HostEffect a s (s.respond .okay)
  | ctrl (v : Word) : a = .write Reg.ctrl.offset (.bytes 4) v → HostEffect a s ((s.respond .okay).writeCtrl v)
  | gain (v : Word) : a = .write Reg.gain.offset (.bytes 4) v → HostEffect a s ((s.respond .okay).writeGain v)
  | irqEn (v : Word) : a = .write Reg.irqEn.offset (.bytes 4) v → HostEffect a s ((s.respond .okay).writeIrqEn v)
  | events (v : Word) : a = .write Reg.events.offset (.bytes 4) v → HostEffect a s ((s.respond .okay).ackEvents v)
  | inWord (off : Offset) (i : Nat) (v : Word) : a = .write off (.bytes 4) v → off.toNat = inOffset i →
      i < s.cap.toNat → HostEffect a s ((s.respond .okay).writeInWord i v)
  /-- An invalid command word (41_commands.md R151). -/
  | invalid (v : Word) (e : DecodeError) : a = .write Reg.cmd.offset (.bytes 4) v → decode v = .invalid e →
      HostEffect a s ((s.respond .okay).reject (.ofDecode e))
  | command (v : Word) (i : Instr) (t : State) : a = .write Reg.cmd.offset (.bytes 4) v → decode v = .command i →
      exec i (s.respond .okay) = .next t → HostEffect a s t

/-- Every Host access completes, with one of these effects (20_memory.md R65). -/
theorem hostAccess_effect (a : HostAccess) (s : State) : ∃ t, hostAccess a s = .next t ∧ HostEffect a s t := by
  cases a with
  | read off size =>
    show ∃ t, hostRead off size s = .next t ∧ _
    unfold hostRead
    split
    · exact ⟨_, rfl, .error⟩
    · exact ⟨_, rfl, .read off size _ rfl⟩
    · exact ⟨_, rfl, .read off size _ rfl⟩
  | write off size v =>
    show ∃ t, hostWrite off size v s = .next t ∧ _
    unfold hostWrite
    split
    · exact ⟨_, rfl, .error⟩
    · rename_i r hr
      obtain ⟨rfl, rfl⟩ := busTarget_eq_reg.1 hr
      cases r with
      | id => exact ⟨_, rfl, .ignored _ _ _ rfl⟩
      | ctrl => exact ⟨_, rfl, .ctrl v rfl⟩
      | gain => exact ⟨_, rfl, .gain v rfl⟩
      | status => exact ⟨_, rfl, .ignored _ _ _ rfl⟩
      | events => exact ⟨_, rfl, .events v rfl⟩
      | irqEn => exact ⟨_, rfl, .irqEn v rfl⟩
      | cmd =>
        show ∃ t, submit v (s.respond .okay) = .next t ∧ _
        unfold submit
        split
        · rename_i e he
          exact ⟨_, rfl, .invalid v e rfl he⟩
        · rename_i i hi
          obtain ⟨t, ht, _⟩ := exec_effect i (s.respond .okay)
          exact ⟨t, ht, .command v i t rfl hi ht⟩
      | frameCount => exact ⟨_, rfl, .ignored _ _ _ rfl⟩
      | cap => exact ⟨_, rfl, .ignored _ _ _ rfl⟩
    · rename_i i hi
      obtain ⟨rfl, ho, hlt⟩ := busTarget_eq_inWord hi
      exact ⟨_, rfl, .inWord off i v rfl ho hlt⟩

/-! ### One step -/

/-- The states a step can leave. -/
inductive StepEffect (s : State) : State → Prop where
  | idle : s.pending = [] → StepEffect s s
  | host (a : HostAccess) (rest : List Action) (t : State) : s.pending = .host a :: rest →
      hostAccess a (s.withPending rest) = .next t → HostEffect a (s.withPending rest) t → StepEffect s t
  | accept (rest : List Action) : s.pending = .sink .accept :: rest → s.pend = true →
      StepEffect s (s.withPending rest).deliver
  | closed (rest : List Action) : s.pending = .sink .closed :: rest → s.pend = true →
      StepEffect s (s.withPending rest).closeStream
  | reset (rest : List Action) : s.pending = .reset :: rest → StepEffect s (s.withPending rest).hardReset

/-- A step completes with one of these effects, or it is a Sink move with no offer. -/
theorem step_effect (s : State) :
    (∃ t, step s = .next t ∧ StepEffect s t) ∨
    (step s = .fault .sinkWithoutOffer ∧ s.pend = false ∧ ∃ a rest, s.pending = .sink a :: rest) := by
  unfold step
  split
  · rename_i h
    exact .inl ⟨s, rfl, .idle h⟩
  · rename_i a rest h
    cases a with
    | host a =>
      obtain ⟨t, ht, he⟩ := hostAccess_effect a (s.withPending rest)
      exact .inl ⟨t, ht, .host a rest t h ht he⟩
    | sink a =>
      by_cases hp : s.pend = true
      · refine .inl ?_
        cases a with
        | accept => exact ⟨_, by simp [act, sinkStep, hp], .accept rest h hp⟩
        | closed => exact ⟨_, by simp [act, sinkStep, hp], .closed rest h hp⟩
      · exact .inr ⟨by simp [act, sinkStep, hp], by simpa using hp, a, rest, h⟩
    | reset => exact .inl ⟨_, rfl, .reset rest h⟩

/-- A next state of a step has one of the effects. -/
theorem step_next {s t : State} (h : step s = .next t) : StepEffect s t := by
  rcases step_effect s with ⟨t', ht, he⟩ | ⟨hf, _⟩
  · rw [ht] at h
    cases h
    exact he
  · rw [hf] at h
    cases h

end Sys2Proof.Machine
end

