-- ==== Sys2Proof/Laws/Moves.lean ====
section
/-! SUPPORT. What a step can do, said in the terms claims use: the command, the register or the IN_BUF word that the
next move addresses. -/

namespace Sys2Proof.Machine

/-- Two registers have one offset only if they are the same (10_state.md R23). -/
theorem Reg.offset_inj {r q : Reg} : r.offset = q.offset ↔ r = q := by
  cases r <;> cases q <;> decide

/-- No IN_BUF word is at a register's offset (20_memory.md R61). -/
theorem inOffset_ne_reg {off : Offset} {i : Nat} (h : off.toNat = inOffset i) (r : Reg) : off ≠ r.offset := by
  rintro rfl
  simp only [inOffset, inBase] at h
  cases r <;> simp [Reg.offset] at h <;> omega

section
variable {s : State} {off : Offset} {size : AccessSize} {v : Word} {rest : List Action}

/-- What a Host write writes to a register. -/
theorem nextRegWrite?_of_write (r : Reg) (h : s.pending = .host (.write off size v) :: rest) :
    s.nextRegWrite? r = if size = .bytes 4 ∧ off = r.offset then some v else none := by
  simp only [State.nextRegWrite?, h, busTarget_eq_reg]

/-- A move that is no Host write writes no register. -/
theorem nextRegWrite?_of_other (r : Reg) (h : ∀ off size v, s.pending.head? ≠ some (.host (.write off size v))) :
    s.nextRegWrite? r = none := by
  unfold State.nextRegWrite?
  split
  · rename_i hp
    exact absurd (by rw [hp]; rfl) (h _ _ _)
  · rfl

/-- A move that is no Host write submits no command. -/
theorem nextDecoded?_of_other (h : ∀ off size v, s.pending.head? ≠ some (.host (.write off size v))) :
    s.nextDecoded? = none := by
  simp only [State.nextDecoded?, State.nextCommandWord?, nextRegWrite?_of_other .cmd h, Option.map_none]

/-- A move that is no Host write writes no IN_BUF word. -/
theorem nextInWord?_of_other (h : ∀ off size v, s.pending.head? ≠ some (.host (.write off size v))) :
    s.nextInWord? = none := by
  unfold State.nextInWord?
  split
  · rename_i hp
    exact absurd (by rw [hp]; rfl) (h _ _ _)
  · rfl

/-- A 32-bit write to a register writes that register alone. -/
theorem nextRegWrite?_of_reg (r q : Reg) (h : s.pending = .host (.write r.offset (.bytes 4) v) :: rest) :
    s.nextRegWrite? q = if r = q then some v else none := by
  simp only [nextRegWrite?_of_write q h, true_and, Reg.offset_inj]

/-- A 32-bit write to a register writes no IN_BUF word. -/
theorem nextInWord?_of_reg (r : Reg) (h : s.pending = .host (.write r.offset (.bytes 4) v) :: rest) :
    s.nextInWord? = none := by
  have ht : busTarget s.cap.toNat r.offset (.bytes 4) = .reg r := busTarget_eq_reg.2 ⟨rfl, rfl⟩
  simp only [State.nextInWord?, h, ht]

/-- A step whose move writes a register is that register's write, the bus answering OKAY. -/
theorem step_of_regWrite (r : Reg) (h : s.pending = .host (.write r.offset (.bytes 4) v) :: rest) :
    step s = regWrite r v ((s.withPending rest).respond .okay) := by
  have ht : busTarget s.cap.toNat r.offset (.bytes 4) = .reg r := busTarget_eq_reg.2 ⟨rfl, rfl⟩
  simp only [step, h, act, hostAccess, hostWrite, State.withPending_cap, ht]

end

/-- The state a Host write's effect starts from: the move taken, the bus answering OKAY. -/
def State.taken (s : State) : State := (s.withPending s.pending.tail).respond .okay

@[simp] theorem State.taken_rmode (s : State) : s.taken.rmode = s.rmode := rfl
@[simp] theorem State.taken_gain (s : State) : s.taken.gain = s.gain := rfl
@[simp] theorem State.taken_pend (s : State) : s.taken.pend = s.pend := rfl
@[simp] theorem State.taken_fatal (s : State) : s.taken.fatal = s.fatal := rfl
@[simp] theorem State.taken_errcode (s : State) : s.taken.errcode = s.errcode := rfl
@[simp] theorem State.taken_olen (s : State) : s.taken.olen = s.olen := rfl
@[simp] theorem State.taken_events (s : State) : s.taken.events = s.events := rfl
@[simp] theorem State.taken_irqEn (s : State) : s.taken.irqEn = s.irqEn := rfl
@[simp] theorem State.taken_frameCount (s : State) : s.taken.frameCount = s.frameCount := rfl
@[simp] theorem State.taken_cap (s : State) : s.taken.cap = s.cap := rfl
@[simp] theorem State.taken_inBuf (s : State) : s.taken.inBuf = s.inBuf := rfl
@[simp] theorem State.taken_outBuf (s : State) : s.taken.outBuf = s.outBuf := rfl
@[simp] theorem State.taken_stream (s : State) : s.taken.stream = s.stream := rfl
@[simp] theorem State.taken_draws (s : State) : s.taken.draws = s.draws := rfl
@[simp] theorem State.taken_response (s : State) : s.taken.response = some .okay := rfl
@[simp] theorem State.taken_pending (s : State) : s.taken.pending = s.pending.tail := rfl

/-- The states a step can leave, by the kind of the move. -/
inductive StepKind (s : State) : State → Prop where
  /-- No move, a Host read, an access the block does not define or a write to a read-only register. -/
  | none (p : List Action) (r : Option Response) :
      (∀ q, q ∈ [Reg.ctrl, Reg.gain, Reg.irqEn, Reg.events] → s.nextRegWrite? q = none) →
      s.nextDecoded? = none → s.nextInWord? = none → (∀ a, s.pending.head? ≠ some (.sink a)) →
      s.pending.head? ≠ some .reset → StepKind s { s with pending := p, response := r }
  /-- A Host write to CTRL, GAIN, IRQ_EN or EVENTS. -/
  | reg (r : Reg) (v : Word) (t : State) : r ∈ [Reg.ctrl, Reg.gain, Reg.irqEn, Reg.events] →
      (∀ q, s.nextRegWrite? q = if r = q then some v else none) → s.nextDecoded? = none → s.nextInWord? = none →
      (∀ a, s.pending.head? ≠ some (.sink a)) → s.pending.head? ≠ some .reset →
      regWrite r v s.taken = .next t → StepKind s t
  /-- A Host write to an IN_BUF word. -/
  | inWord (i : Nat) (v : Word) : i < s.cap.toNat → s.nextInWord? = some i → (∀ q, s.nextRegWrite? q = none) →
      s.nextDecoded? = none → (∀ a, s.pending.head? ≠ some (.sink a)) → s.pending.head? ≠ some .reset →
      StepKind s (s.taken.writeInWord i v)
  /-- An invalid command word. -/
  | invalid (e : DecodeError) : s.nextDecoded? = some (.invalid e) →
      (∀ q, q ≠ Reg.cmd → s.nextRegWrite? q = none) → s.nextInWord? = none →
      (∀ a, s.pending.head? ≠ some (.sink a)) → s.pending.head? ≠ some .reset →
      StepKind s (s.taken.reject (.ofDecode e))
  /-- A command. -/
  | command (i : Instr) (t : State) : s.nextDecoded? = some (.command i) →
      (∀ q, q ≠ Reg.cmd → s.nextRegWrite? q = none) → s.nextInWord? = none →
      (∀ a, s.pending.head? ≠ some (.sink a)) → s.pending.head? ≠ some .reset →
      exec i s.taken = .next t → StepKind s t
  | accept (rest : List Action) : s.pending = .sink .accept :: rest → s.pend = true →
      (∀ q, s.nextRegWrite? q = none) → s.nextDecoded? = none → s.nextInWord? = none →
      StepKind s (s.withPending rest).deliver
  | closed (rest : List Action) : s.pending = .sink .closed :: rest → s.pend = true →
      (∀ q, s.nextRegWrite? q = none) → s.nextDecoded? = none → s.nextInWord? = none →
      StepKind s (s.withPending rest).closeStream
  | reset (rest : List Action) : s.pending = .reset :: rest →
      (∀ q, s.nextRegWrite? q = none) → s.nextDecoded? = none → s.nextInWord? = none →
      StepKind s (s.withPending rest).hardReset

/-- A next state of a step is of one of the kinds. -/
theorem step_kind {s t : State} (h : step s = .next t) : StepKind s t := by
  cases step_next h with
  | idle hp =>
    have hw : ∀ off size v, s.pending.head? ≠ some (.host (.write off size v)) := by simp [hp]
    exact .none _ _ (fun q _ => nextRegWrite?_of_other q hw) (nextDecoded?_of_other hw) (nextInWord?_of_other hw)
      (by simp [hp]) (by simp [hp])
  | accept rest hp h1 =>
    have hw : ∀ off size v, s.pending.head? ≠ some (.host (.write off size v)) := by simp [hp]
    exact .accept rest hp h1 (fun q => nextRegWrite?_of_other q hw) (nextDecoded?_of_other hw)
      (nextInWord?_of_other hw)
  | closed rest hp h1 =>
    have hw : ∀ off size v, s.pending.head? ≠ some (.host (.write off size v)) := by simp [hp]
    exact .closed rest hp h1 (fun q => nextRegWrite?_of_other q hw) (nextDecoded?_of_other hw)
      (nextInWord?_of_other hw)
  | reset rest hp =>
    have hw : ∀ off size v, s.pending.head? ≠ some (.host (.write off size v)) := by simp [hp]
    exact .reset rest hp (fun q => nextRegWrite?_of_other q hw) (nextDecoded?_of_other hw) (nextInWord?_of_other hw)
  | host a rest t hp hh _ =>
    have hsink : ∀ a, s.pending.head? ≠ some (.sink a) := by simp [hp]
    have hres : s.pending.head? ≠ some .reset := by simp [hp]
    have htaken : (s.withPending rest).respond .okay = s.taken := by simp [State.taken, hp]
    cases a with
    | read off size =>
      have hw : ∀ off size v, s.pending.head? ≠ some (.host (.write off size v)) := by simp [hp]
      have quiet : ∀ r, StepKind s ((s.withPending rest).respond r) := fun r =>
        .none rest (some r) (fun q _ => nextRegWrite?_of_other q hw) (nextDecoded?_of_other hw)
          (nextInWord?_of_other hw) hsink hres
      simp only [hostAccess, hostRead] at hh
      split at hh <;> cases hh <;> exact quiet _
    | write off size v =>
      simp only [hostAccess, hostWrite, State.withPending_cap] at hh
      split at hh
      · rename_i ht
        have hno : ∀ q, s.nextRegWrite? q = none := fun q => by simp only [State.nextRegWrite?, hp, ht]; rfl
        cases hh
        exact .none rest _ (fun q _ => hno q) (by simp [State.nextDecoded?, State.nextCommandWord?, hno])
          (by simp only [State.nextInWord?, hp, ht]) hsink hres
      · rename_i r ht
        obtain ⟨rfl, rfl⟩ := busTarget_eq_reg.1 ht
        have hq : ∀ q, s.nextRegWrite? q = if r = q then some v else none := fun q => nextRegWrite?_of_reg r q hp
        have hd : r ≠ .cmd → s.nextDecoded? = none := fun hr => by
          simp [State.nextDecoded?, State.nextCommandWord?, hq, hr]
        have hi := nextInWord?_of_reg r hp
        rw [htaken] at hh
        have ignored : r ≠ .cmd → r ∉ [Reg.ctrl, Reg.gain, Reg.irqEn, Reg.events] → StepKind s s.taken := by
          intro h1 h2
          refine .none _ _ (fun q hq' => ?_) (hd h1) hi hsink hres
          rw [hq, if_neg]
          rintro rfl
          exact h2 hq'
        have conf : r ∈ [Reg.ctrl, Reg.gain, Reg.irqEn, Reg.events] → r ≠ .cmd → StepKind s t := fun h1 h2 =>
          .reg r v t h1 hq (hd h2) hi hsink hres hh
        cases r with
        | id => cases hh; exact ignored (by decide) (by decide)
        | ctrl => exact conf (by decide) (by decide)
        | gain => exact conf (by decide) (by decide)
        | status => cases hh; exact ignored (by decide) (by decide)
        | events => exact conf (by decide) (by decide)
        | irqEn => exact conf (by decide) (by decide)
        | cmd =>
          have hdc : s.nextDecoded? = some (decode v) := by simp [State.nextDecoded?, State.nextCommandWord?, hq]
          have hqc : ∀ q, q ≠ Reg.cmd → s.nextRegWrite? q = none := fun q h1 => by rw [hq, if_neg (Ne.symm h1)]
          simp only [regWrite, submit] at hh
          split at hh
          · rename_i e he
            cases hh
            exact .invalid e (by rw [hdc, he]) hqc hi hsink hres
          · rename_i i he
            exact .command i t (by rw [hdc, he]) hqc hi hsink hres hh
        | frameCount => cases hh; exact ignored (by decide) (by decide)
        | cap => cases hh; exact ignored (by decide) (by decide)
      · rename_i i ht
        obtain ⟨rfl, ho, hlt⟩ := busTarget_eq_inWord ht
        have hno : ∀ q, s.nextRegWrite? q = none := fun q => by
          rw [nextRegWrite?_of_write q hp, if_neg (fun hc => inOffset_ne_reg ho q hc.2)]
        cases hh
        rw [htaken]
        exact .inWord i v hlt (by simp only [State.nextInWord?, hp, ht]) hno
          (by simp [State.nextDecoded?, State.nextCommandWord?, hno]) hsink hres

end Sys2Proof.Machine
end

