-- ==== Sys2Proof/Laws/PerInstr.lean ====
section
/-! SUPPORT. The family of lemmas made once per constructor of Instr. -/

namespace Sys2Proof

/-- The bits of a PROCESS word: bit 0 is set, bits [15:1] are clear, bits [31:16] are the length (30_encoding.md
R94). -/
theorem getLsbD_encode_process (n i : Nat) :
    (encode (.process n)).getLsbD i = if i < 16 then decide (i = 0) else (BitVec.ofNat 16 n).getLsbD (i - 16) := by
  simp only [encode, BitVec.getLsbD_append]
  split
  · interval_cases i <;> rfl
  · rfl

/-- A PROCESS word masked with its row's mask is its row's match. -/
theorem encode_process_and_mask (n : Nat) : encode (.process n) &&& 0x0000FFFF#32 = 0x00000001#32 := by
  apply BitVec.eq_of_getLsbD_eq
  intro i hi
  rw [BitVec.getLsbD_and, getLsbD_encode_process]
  split
  · interval_cases i <;> rfl
  · interval_cases i <;> first | omega | exact Bool.and_false _

/-- A PROCESS word is none of the words whose bit 0 is clear. -/
theorem encode_process_ne {w : Word} (n : Nat) (h : w.getLsbD 0 = false) : encode (.process n) ≠ w := by
  rintro rfl
  rw [getLsbD_encode_process] at h
  simp at h

namespace Laws

/-- An instruction's command word selects its own row of the opcode map, and no other row (30_encoding.md R91). -/
def EncodingSelectsRow.Statement (i : Instr) : Prop :=
  ∀ r ∈ opcodeMap, r.selects (encode i) = decide (r = i.row)

theorem EncodingSelectsRow.nop : EncodingSelectsRow.Statement .nop := by
  unfold EncodingSelectsRow.Statement; decide

theorem EncodingSelectsRow.process (n : Nat) : EncodingSelectsRow.Statement (.process n) := by
  intro r hr
  have hand : ∀ w : Word, w &&& 0xFFFFFFFF#32 = w := fun w => BitVec.and_allOnes
  simp only [opcodeMap, List.mem_cons, List.not_mem_nil, or_false] at hr
  rcases hr with rfl | rfl | rfl
  · simp only [OpcodeRow.selects, Instr.row, hand]
    exact beq_eq_false_iff_ne.2 (encode_process_ne n rfl)
  · simp [OpcodeRow.selects, Instr.row, encode_process_and_mask]
  · simp only [OpcodeRow.selects, Instr.row, hand]
    exact beq_eq_false_iff_ne.2 (encode_process_ne n rfl)

theorem EncodingSelectsRow.sreset : EncodingSelectsRow.Statement .sreset := by
  unfold EncodingSelectsRow.Statement; decide

end Laws

end Sys2Proof
end

