-- ==== Sys2Proof/Machine/Script.lean ====
section
/-! DEFINITION. The pseudo-instructions of 30_encoding.md R103, each exactly one `wr`. -/

namespace Sys2Proof.Machine

/-- `nop`, `process <n>` and `sreset`: the command's word written to CMD (30_encoding.md R103). -/
def Script.command (i : Instr) : Action := .wr Reg.cmd.offset (encode i)

/-- `ldf <i>, <v>`: `wr 0x40000 + 4*i, <v>` (30_encoding.md R103). -/
def Script.ldf (i : Nat) (v : Word) : Action := .wr (BitVec.ofNat 20 (inOffset i)) v

/-- `gain <v>` (30_encoding.md R103). -/
def Script.gain (v : Word) : Action := .wr Reg.gain.offset v

/-- `rmode trunc` and `rmode rne` (30_encoding.md R103). -/
def Script.rmode (rne : Bool) : Action := .wr Reg.ctrl.offset (if rne then 1 else 0)

/-- `ack <mask>` (30_encoding.md R103). -/
def Script.ack (mask : Word) : Action := .wr Reg.events.offset mask

/-- `irqen <mask>` (30_encoding.md R103). -/
def Script.irqen (mask : Word) : Action := .wr Reg.irqEn.offset mask

end Sys2Proof.Machine
end

