-- ==== Sys2Proof/Tests/Slice0.lean ====
section
/-! SUPPORT. Tests of the model, with expected values from spec/95_test_vectors.md and from the rules, and for every
statement with hypotheses a state and operands that meet them. -/

namespace Sys2Proof.Tests

open Sys2Proof.Machine

/-! ### Helpers -/

/-- The reset state of a block with NMAX = 128, the capacity the vectors of 95_test_vectors.md take. -/
def fresh : State := { State.reset with cap := 128 }

/-- `fresh` with IN_BUF[0] holding a word. -/
def loaded (v : Word) : State := fresh.writeInWord 0 v

/-- `fresh` with a frame of one sample offered. -/
def offered : State := fresh.offerFrame [0x6665#16]

/-- A stream that the Sink has refused. -/
def failed : State := offered.closeStream

/-- A field of the state after one move. -/
def after {α : Type} (a : Action) (f : State → α) (s : State) : Option α :=
  (nextState? (step (s.withPending [a]))).map f

/-! ### WellFormed -/

theorem test_wellFormed_accepts_largest_length : (Instr.process 65535).WellFormed := by decide
theorem test_wellFormed_refuses_long_length : ¬ (Instr.process 65536).WellFormed := by decide

/-! ### Decoding: the words of 95_test_vectors.md section 3, written out by the fields LEN, RSVD, OP of R90 -/

theorem test_decode_nop : decode (0b0000000000000000#16 ++ 0b000000000000#12 ++ 0b0000#4) = .command .nop := by decide
theorem test_decode_process : decode (0b0000000000000101#16 ++ 0b000000000000#12 ++ 0b0001#4) = .command (.process 5) := by decide
theorem test_decode_sreset : decode (0b0000000000000000#16 ++ 0b000000000000#12 ++ 0b0010#4) = .command .sreset := by decide
theorem test_decode_process_length_is_unsigned : decode 0x80000001#32 = .command (.process 32768) := by decide
theorem test_decode_reserved_opcode_first : decode 0x00000013#32 = .invalid .badOp := by decide
theorem test_decode_reserved_field : decode 0x00058001#32 = .invalid .rsvdBits := by decide
theorem test_decode_nop_with_length : decode 0x00010000#32 = .invalid .rsvdBits := by decide
theorem test_decode_sreset_with_length : decode 0x00010002#32 = .invalid .rsvdBits := by decide
theorem test_encode_process : encode (.process 5) = 0x00050001#32 := by decide
theorem test_decodeTableWord_rows : decodeTableWord 32 0 = some .nop ∧ decodeTableWord 32 1 = some (.process 0) ∧
    decodeTableWord 32 2 = some .sreset ∧ decodeTableWord 32 3 = none := by decide
theorem test_bytes_little_endian : bytesOfWord 0x12345678#32 = [0x78#8, 0x56#8, 0x34#8, 0x12#8] := by decide

/-! ### Q: rows of 95_test_vectors.md section 2 as (s, g, result at rm = 0, result at rm = 1) -/

/-- Both modes give the row's results. -/
def qRow (r : Word × Word × Int × Int) : Bool :=
  quantize r.1 r.2.1 false == r.2.2.1 && quantize r.1 r.2.1 true == r.2.2.2

theorem test_q_reset_gain : (([(0x3F800000, 0x3F4CCCCD, 26213, 26214), (0xBF800000, 0x3F4CCCCD, -26213, -26214),
    (0x3FA00000, 0x3F4CCCCD, 32767, 32767), (0xBFA00000, 0x3F4CCCCD, -32767, -32767),
    (0x3F000000, 0x3F4CCCCD, 13106, 13107), (0xBE800000, 0x3F4CCCCD, -6553, -6553),
    (0x3F4CCCCD, 0x3F4CCCCD, 20970, 20971), (0xFF7FFFFF, 0x3F4CCCCD, -32767, -32767),
    (0x38000000, 0x3F4CCCCD, 0, 1)] : List (Word × Word × Int × Int)).all qRow) = true := by decide
theorem test_q_invalid_samples : (([(0x7FC00000, 0x3F4CCCCD, 32767, 32767), (0xFFC00000, 0x3F800000, 32767, 32767),
    (0x7F800001, 0x00000000, 32767, 32767), (0xFFFFFFFF, 0x3F800000, 32767, 32767),
    (0x7F800000, 0x00000000, 32767, 32767), (0xFF800000, 0x80000000, -32767, -32767)] :
    List (Word × Word × Int × Int)).all qRow) = true := by decide
theorem test_q_rounding : (([(0x3F000000, 0x3F800000, 16383, 16384), (0xBF000000, 0x3F800000, -16383, -16384),
    (0x3EFFFFFF, 0x3F800000, 16383, 16383), (0x3F000001, 0x3F800000, 16383, 16384),
    (0xBF7FFFFF, 0x3F800000, -32766, -32767), (0x3F800001, 0x3F800000, 32767, 32767),
    (0x3F400000, 0x3F800000, 24575, 24575), (0xB8000000, 0x3F800000, 0, -1), (0x00800000, 0x3F800000, 0, 0),
    (0x00000001, 0x3F800000, 0, 0)] : List (Word × Word × Int × Int)).all qRow) = true := by decide
theorem test_q_gain : (([(0x7F7FFFFF, 0x80000000, 0, 0), (0x7F7FFFFF, 0x00000001, 0, 0),
    (0x00000001, 0x7F7FFFFF, 0, 0), (0x3F800000, 0x7F7FFFFF, 32767, 32767), (0x3E800000, 0x40000000, 16383, 16384),
    (0x3F000000, 0x3FA00000, 20479, 20479), (0x34000000, 0x4B000000, 32767, 32767)] :
    List (Word × Word × Int × Int)).all qRow) = true := by decide
theorem test_int16_patterns : bits16 (-26213) = 0x999B#16 ∧ int16 0x8001#16 = -32767 := by decide
theorem test_gain_legality : gainLegal 0x80000000#32 = true ∧ gainLegal 0x80000001#32 = false ∧
    gainLegal 0x7F800000#32 = false ∧ gainLegal 0xFFC00000#32 = false := by decide

/-! ### Commands (95_test_vectors.md section 4) -/

theorem test_nop_keeps_errcode : after (Script.command .nop) (fun t => (t.errcode, t.events)) (failed.reject .fatal) = some (3, 0xC) := by decide
theorem test_process_one_sample : after (Script.command (.process 1)) (fun t => (t.outBuf, t.statusWord)) (loaded 0x3F800000) = some ([0x6665#16], 0x00010001#32) := by decide
theorem test_process_busy_before_bad_length : after (Script.command (.process 129)) State.statusWord offered = some 0x00010401#32 := by decide
theorem test_sreset_clears_status : after (Script.command .sreset) (fun t => (t.statusWord, t.events, t.gain)) (failed.reject .fatal) = some (0, 0, 0x3F4CCCCD#32) := by decide

/-! ### Bus, Sink and reset (95_test_vectors.md sections 5 and 6) -/

theorem test_bus_read_cap : after (.rd 0x020) State.response fresh = some (some (.data 0x00000080)) := by decide
theorem test_bus_events_w1c : after (Script.ack 5) State.events { fresh with events := 0xF } = some 0xA := by decide
theorem test_bus_unmapped_index : after (.rd 0x40200) State.response fresh = some (some .error) := by decide
theorem test_bus_byte_write : after (.host (.write 0x004 (.bytes 1) 1)) (fun t => (t.rmode, t.response)) fresh = some (false, some .error) := by decide
theorem test_bus_in_buf_bytes : after (Script.ldf 1 0x7F800001) State.inBuf fresh = some [(0x40004, 0x01), (0x40005, 0x00), (0x40006, 0x80), (0x40007, 0x7F)] := by decide
theorem test_sink_accept_payload : after (.sink .accept) (fun t => (t.stream, t.statusWord)) offered = some ([⟨1, [0x65, 0x66]⟩], 0x00010000#32) := by decide
theorem test_sink_close_status : after (.sink .closed) (fun t => (t.statusWord, t.events)) offered = some (0x00010002#32, 8) := by decide
theorem test_reset_withdraws_offer : after .reset (fun t => (t.statusWord, t.stream, t.cap)) offered = some (0, [], 128) := by decide
theorem test_irq_level : ({ fresh with events := 4, irqEn := 5 } : State).irq = true ∧ ({ fresh with events := 4, irqEn := 1 } : State).irq = false := by decide

/-! ### Witnesses: for each statement with hypotheses, a state and operands that meet them -/

theorem witness_roundTrip : (Instr.process 65535).WellFormed ∧ Instr.nop.WellFormed := by decide
theorem witness_fields : 2 < (0x13#32 : Word).toNat % 16 ∧ (0x00058001#32 : Word).toNat / 16 % 4096 ≠ 0 ∧ (0x00010000#32 : Word).toNat / 65536 ≠ 0 ∧ (0xFFFF0001#32 : Word).toNat / 16 % 4096 = 0 := by decide
theorem witness_opcodeMap : decode 0xFFFF0001#32 = .command (.process 65535) ∧ (Instr.process 0).row.selects 0xFFFF0001#32 = true := by decide
theorem witness_nop : (0x10#32 : Word).toNat % 16 = 0 ∧ (0x10#32 : Word) ≠ 0 := by decide
theorem witness_admission_fatal : failed.fatal = true := by decide
theorem witness_admission_empty : offered.fatal = false ∧ offered.pend = true := by decide
theorem witness_admission_length : fresh.fatal = false ∧ fresh.pend = false ∧ fresh.cap.toNat < 129 ∧ 128 ≤ fresh.cap.toNat := by decide
theorem witness_admission_gain : f32class (0x80000001#32) = .finite ∧ ¬ 0 ≤ f32Units 0x80000001#32 ∧ f32class 0x7FC00000#32 ≠ .finite := by decide
theorem witness_admission_illegalGain : ¬ (f32class 0x7F800000#32 = .finite ∧ 0 ≤ f32val 0x7F800000#32) := fun h => absurd h.1 (by decide)
theorem witness_admission_legalGain : f32class 0x80000000#32 = .finite ∧ 0 ≤ f32val 0x80000000#32 := by
  refine ⟨by decide, ?_⟩
  have h0 : f32Exp 0x80000000#32 = 0 := by decide
  have h1 : f32Frac 0x80000000#32 = 0 := by decide
  simp [f32val, h0, h1]
theorem witness_frame : (loaded 0x3F800000).fatal = false ∧ (loaded 0x3F800000).pend = false ∧ 128 ≤ (loaded 0x3F800000).cap.toNat ∧ gainLegal (loaded 0x3F800000).gain = true := by decide
theorem witness_sreset : step (failed.withPending [Script.command .sreset]) = .next (failed.softReset.respond .okay) ∧ failed.fatal = true ∧ (0xFFFF0002#32 : Word).toNat % 16 = 2 := ⟨rfl, by decide, by decide⟩
theorem witness_invalid : (failed.withPending [.wr 0x018 0x13]).pending = [.wr 0x018 0x13] ∧ decode 0x13#32 = .invalid .badOp ∧ decode 0x10#32 = .invalid .rsvdBits := by decide
theorem witness_commandFrame : exec (.process 1) fresh = .next (fresh.offerFrame (fresh.quantizedFrame 1)) ∧ exec .nop failed = .next failed ∧ exec .sreset failed = .next failed.softReset := ⟨rfl, rfl, rfl⟩
theorem witness_lane : (loaded 7).inWord 0 = ((loaded 7).ackEvents 1).inWord 0 ∧ exec (.process 1) (loaded 7) = .next ((loaded 7).offerFrame ((loaded 7).quantizedFrame 1)) := ⟨by decide, rfl⟩
theorem witness_badAccess : AccessSize.partialEnables ≠ .bytes 4 ∧ (0x002#20 : Offset).toNat % 4 ≠ 0 ∧ 0x24 ≤ (0x3FFFC#20 : Offset).toNat ∧ 0x40000 + 4 * fresh.cap.toNat ≤ (0x40200#20 : Offset).toNat := by decide
theorem witness_registerRead : (fresh.withPending [.rd 0x00C]).pending = [.rd 0x00C] ∧ (0 : Word).toNat = fresh.olen.toNat * 65536 + fresh.errcode.toNat * 256 + fresh.fatal.toNat * 2 + fresh.pend.toNat ∧ (0x80#32 : Word).toNat = fresh.cap.toNat := by decide
theorem witness_registerWrite : (fresh.withPending [.wr 0x020 1]).pending = [.wr 0x020 1] := by decide
theorem witness_inBuf : 127 < fresh.cap.toNat ∧ (0x401FC#20 : Offset).toNat = 0x40000 + 4 * 127 ∧ (fresh.withPending [.rd 0x401FC]).pending = [.rd 0x401FC] := by decide
theorem witness_hostRead : (fresh.withPending [.host (.read 0x3FFFD .partialEnables)]).pending = [.host (.read 0x3FFFD .partialEnables)] := by decide
theorem witness_sinkAccept : (offered.withPending [.sink .accept]).pending = [.sink .accept] ∧ (offered.withPending [.sink .accept]).pend = true := by decide
theorem witness_sinkClosed : (offered.withPending [.sink .closed]).pending = [.sink .closed] ∧ (offered.withPending [.sink .closed]).pend = true := by decide
theorem witness_fatalStays : step failed = .next failed ∧ failed.fatal = true ∧ ¬ failed.nextResets := ⟨rfl, by decide, by decide⟩
theorem witness_sinkStop : (fresh.withPending [.sink .accept]).pending = [.sink .accept] ∧ (fresh.withPending [.sink .accept]).pend = false := by decide
theorem witness_payload : 0 < offered.olen.toNat := by decide
theorem witness_stable : step (offered.withPending [Script.ldf 0 5]) = .next ((offered.respond .okay).writeInWord 0 5) ∧ offered.pend = true ∧ ¬ (offered.withPending [Script.ldf 0 5]).nextResets := ⟨rfl, by decide, by decide⟩
theorem witness_run : Sys2Proof.core.run 2 ((loaded 7).withPending [Script.command (.process 1), .sink .accept]) = .next ((((loaded 7).respond .okay).offerFrame ((loaded 7).quantizedFrame 1)).deliver) := rfl
theorem witness_stepPerformsFrame : step (fresh.withPending [Script.command (.process 128)]) = .next ((fresh.respond .okay).offerFrame (fresh.quantizedFrame 128)) ∧ (fresh.withPending [Script.command (.process 128)]).nextPerformsFrame 128 := ⟨rfl, by decide⟩
theorem witness_stepResets : step (failed.withPending [.reset]) = .next failed.hardReset ∧ (failed.withPending [.reset]).nextResets ∧ (failed.withPending [Script.command .sreset]).nextResets := ⟨rfl, by decide, by decide⟩
theorem witness_stepRejects : step (offered.withPending [Script.command (.process 1)]) = .next ((offered.respond .okay).reject .busy) ∧ (offered.withPending [Script.command (.process 1)]).nextRejection? = some .busy := ⟨rfl, by decide⟩
theorem witness_stepKeeps : step fresh = .next fresh ∧ ¬ fresh.nextResets ∧ fresh.nextRejection? = none ∧ (∀ n, ¬ fresh.nextPerformsFrame n) ∧ fresh.pending.head? ≠ some (.sink .accept) := ⟨rfl, by decide, by decide, fun _ h => (by cases (show none = some _ from h.1)), by decide⟩
theorem witness_stepAccepts : step (offered.withPending [.sink .accept]) = .next offered.deliver ∧ (offered.withPending [.sink .accept]).pending.head? = some (.sink .accept) := ⟨rfl, by decide⟩
theorem witness_stepAcks : step ((offered.skipFrame).withPending [Script.ack 2]) = .next ((offered.skipFrame.respond .okay).ackEvents 2) ∧ offered.skipFrame.events.getLsbD 1 = true ∧ (offered.skipFrame.ackEvents 2).events.getLsbD 1 = false := ⟨rfl, by decide, by decide⟩
theorem witness_stepSkips : step (fresh.withPending [Script.command (.process 0)]) = .next (fresh.skipFrame.respond .okay) ∧ fresh.events.getLsbD 1 = false ∧ fresh.skipFrame.events.getLsbD 1 = true := ⟨rfl, by decide, by decide⟩
theorem witness_stepIrqEn : step (fresh.withPending [Script.irqen 5]) = .next ((fresh.respond .okay).writeIrqEn 5) ∧ (fresh.withPending [Script.irqen 5]).nextRegWrite? .irqEn = some 5 := ⟨rfl, by decide⟩
theorem witness_stepInBuf : (fresh.withPending [Script.ldf 0 5]).nextInWord? ≠ some 1 ∧ (fresh.withPending [.reset]).pending.head? = some .reset := by decide
theorem witness_hardwareReset : (offered.withPending [.reset]).pending = [.reset] := by decide
theorem witness_stepRuns : (fresh.withPending [.wr 0x018 0x00050001]).pending = [.wr 0x018 0x00050001] ∧ decode 0x00050001#32 = .command (.process 5) := by decide
theorem witness_placed : decodeTableWord 32 0xFFFF0001 = some (.process 65535) := by decide
theorem witness_idle : fresh.pending = [] := by decide
theorem witness_aperture : offsetOfAddress (Config.base + 0xFFFFC) = some 0xFFFFC#20 := by
  rw [offsetOfAddress, if_pos (by omega), Nat.add_sub_cancel_left]
theorem witness_int16 : (-32768 : Int) ≤ -32768 ∧ (32767 : Int) ≤ 32767 := by decide
theorem witness_nan : ((0xFF800001#32 : Word).extractLsb' 23 8).toNat = 255 ∧ ((0xFF800001#32 : Word).extractLsb' 0 23).toNat ≠ 0 := by decide
theorem witness_legalGain : gainLegal 0x7F7FFFFF#32 = true ∧ gainLegal 0x80000000#32 = true := by decide
theorem witness_classes : f32class 0xFF800000#32 ≠ .nan ∧ f32class 0x7F800000#32 ≠ .finite ∧ f32class 0x00000001#32 = .finite := by decide
theorem witness_order : f32ext 0xFF800000#32 ≤ f32ext 0x7F800000#32 := by
  have h1 : f32class 0xFF800000#32 = .inf := by decide
  have h2 : f32Sign 0xFF800000#32 = true := by decide
  simp [f32ext, h1, h2]

/-- An offered frame of one sample satisfies the invariant, and so does what ACCEPT leaves of it. -/
theorem witness_invariant : offered.Inv ∧ step (offered.withPending [.sink .accept]) = .next offered.deliver := by
  have hmem : ∀ h ∈ offered.outBuf, h = 0x6665#16 := fun h hh => by simpa [offered, fresh, State.reset] using hh
  exact ⟨⟨by decide, by decide, by decide, by decide, by decide, by decide, by decide,
    fun h hh => by rw [hmem h hh]; decide, fun f hf => absurd hf List.not_mem_nil⟩, rfl⟩

/-! The values of a few patterns, for the witnesses of the statements about exact values. -/

theorem val_one : f32val 0x3F800000#32 = 1 := by
  have h0 : f32Exp 0x3F800000#32 = 127 := by decide
  have h1 : f32Frac 0x3F800000#32 = 0 := by decide
  have h2 : f32Sign 0x3F800000#32 = false := by decide
  norm_num [f32val, f32SignQ, h0, h1, h2]
theorem val_minusOne : f32val 0xBF800000#32 = -1 := by
  have h0 : f32Exp 0xBF800000#32 = 127 := by decide
  have h1 : f32Frac 0xBF800000#32 = 0 := by decide
  have h2 : f32Sign 0xBF800000#32 = true := by decide
  norm_num [f32val, f32SignQ, h0, h1, h2]
theorem val_half : f32val 0x3F000000#32 = 1 / 2 := by
  have h0 : f32Exp 0x3F000000#32 = 126 := by decide
  have h1 : f32Frac 0x3F000000#32 = 0 := by decide
  have h2 : f32Sign 0x3F000000#32 = false := by decide
  norm_num [f32val, f32SignQ, h0, h1, h2]
theorem val_small : f32val 0x38000000#32 = 1 / 32768 := by
  have h0 : f32Exp 0x38000000#32 = 112 := by decide
  have h1 : f32Frac 0x38000000#32 = 0 := by decide
  have h2 : f32Sign 0x38000000#32 = false := by decide
  norm_num [f32val, f32SignQ, h0, h1, h2]
theorem val_minusSmall : f32val 0xB8000000#32 = -(1 / 32768) := by
  have h0 : f32Exp 0xB8000000#32 = 112 := by decide
  have h1 : f32Frac 0xB8000000#32 = 0 := by decide
  have h2 : f32Sign 0xB8000000#32 = true := by decide
  norm_num [f32val, f32SignQ, h0, h1, h2]
theorem witness_saturation : 1 ≤ f32val 0x3F800000#32 * f32val 0x3F800000#32 ∧ f32val 0xBF800000#32 * f32val 0x3F800000#32 ≤ -1 := by
  rw [val_one, val_minusOne]; norm_num
theorem witness_halfway : Int.fract |exactY 0x3F000000#32 0x3F800000#32| = 1 / 2 := by
  have h : exactY 0x3F000000#32 0x3F800000#32 = 32767 / 2 := by norm_num [exactY, clampQ, val_half, val_one]
  rw [h, abs_of_pos (by norm_num), Int.fract, show ⌊(32767 / 2 : ℚ)⌋ = 16383 by rw [Int.floor_eq_iff]; norm_num]
  norm_num
theorem witness_small : 1 / 2 < exactY 0x38000000#32 0x3F800000#32 ∧ exactY 0x38000000#32 0x3F800000#32 < 1 := by
  norm_num [exactY, clampQ, val_small, val_one]
theorem witness_smallNegative : -1 < exactY 0xB8000000#32 0x3F800000#32 ∧ exactY 0xB8000000#32 0x3F800000#32 < -(1 / 2) := by
  norm_num [exactY, clampQ, val_minusSmall, val_one]
theorem witness_zeroValue : f32val 0x80000000#32 = 0 := by
  have h0 : f32Exp 0x80000000#32 = 0 := by decide
  have h1 : f32Frac 0x80000000#32 = 0 := by decide
  simp [f32val, h0, h1]

end Sys2Proof.Tests
end

section
/-! PROOFS of the statements of 00_scope.md: int16 and binary32 encodings, the idle step, the aperture. -/

namespace Sys2Proof.Machine

/-! ### int16 (00_scope.md R16) -/

/-- The model's `int16` is the library's two's complement value, so the library's laws of `toInt` speak of it. -/
theorem int16_eq_toInt (b : Half) : int16 b = b.toInt := by
  rw [int16, BitVec.toInt_eq_msb_cond, BitVec.msb_eq_getLsbD_last]
  rfl

theorem int16_eq_ite_toNat (b : Half) :
    int16 b = if b.toNat < 32768 then (b.toNat : Int) else b.toNat - 65536 := by
  rw [int16_eq_toInt, BitVec.toInt_eq_toNat_cond]
  split <;> split <;> omega

theorem toNat_bits16 (k : Int) : ((bits16 k).toNat : Int) = k % 65536 := by
  rw [bits16, BitVec.toNat_ofInt]
  exact Int.toNat_of_nonneg (Int.emod_nonneg k (by decide))

theorem int16_bits16 {k : Int} (hlo : -32768 ≤ k) (hhi : k ≤ 32767) : int16 (bits16 k) = k := by
  rw [int16_eq_toInt, bits16]
  exact BitVec.toInt_ofInt_eq_self (by decide) hlo (by omega)

@[simp] theorem bits16_int16 (b : Half) : bits16 (int16 b) = b := by
  rw [int16_eq_toInt, bits16, BitVec.ofInt_toInt]

/-- Settles O46: both maps are the library's conversions between 16 bits and the integers. -/
theorem int16EncodingIsTwosComplement : Obligations.Int16EncodingIsTwosComplement :=
  ⟨fun k hlo hhi => ⟨toNat_bits16 k, int16_bits16 hlo hhi⟩, fun b => ⟨int16_eq_ite_toNat b, bits16_int16 b⟩⟩

/-! ### binary32 values (00_scope.md R15) -/

theorem cast_f32Units (b : Word) : (f32Units b : ℚ) = f32SignQ b * f32Mag b := by
  cases h : f32Sign b <;> simp [f32Units, f32SignQ, h]

/-- The magnitude of a subnormal or a zero: `M / 2^23 * 2^-126`. -/
theorem cast_f32Mag_of_exp_zero {b : Word} (hE : f32Exp b = 0) :
    (f32Mag b : ℚ) / 2 ^ 149 = (f32Frac b : ℚ) / 2 ^ 23 * 2 ^ (-126 : ℤ) := by
  rw [f32Mag, if_pos hE]
  norm_num
  ring

/-- The magnitude of a normal pattern: `(1 + M / 2^23) * 2^(E - 127)`. -/
theorem cast_f32Mag_of_exp_ne_zero {b : Word} (hE : f32Exp b ≠ 0) :
    (f32Mag b : ℚ) / 2 ^ 149 = (1 + (f32Frac b : ℚ) / 2 ^ 23) * 2 ^ ((f32Exp b : ℤ) - 127) := by
  rw [f32Mag, if_neg hE]
  obtain ⟨e, he⟩ := Nat.exists_eq_succ_of_ne_zero hE
  have hpow : (2 : ℚ) ^ ((f32Exp b : ℤ) - 127) = 2 ^ e / 2 ^ 126 := by
    rw [he, ← zpow_natCast_sub_natCast₀ two_ne_zero]
    congr 1
    push_cast
    ring
  rw [hpow, he, Nat.succ_sub_one]
  push_cast
  ring

/-- The formula of R15 and the integer form agree on every pattern: only the class separates a finite pattern from one
with exponent 255, which both forms read as a normal number. -/
theorem f32val_eq_f32Units_div (b : Word) : f32val b = (f32Units b : ℚ) / 2 ^ 149 := by
  rw [cast_f32Units, mul_div_assoc, f32val]
  split
  case isTrue hE => rw [cast_f32Mag_of_exp_zero hE, mul_assoc]
  case isFalse hE => rw [cast_f32Mag_of_exp_ne_zero hE, mul_assoc]

theorem f32Exp_resetGain : f32Exp 0x3F4CCCCD#32 = 126 := by decide

theorem f32class_resetGain : f32class 0x3F4CCCCD#32 = .finite := by
  simp [f32class, f32Exp_resetGain]

/-- The reset gain in units of 2^-149 (10_state.md R26). -/
theorem f32Units_resetGain : f32Units 0x3F4CCCCD#32 = 13421773 * 2 ^ 125 := by
  have hS : f32Sign 0x3F4CCCCD#32 = false := by decide
  have hM : f32Frac 0x3F4CCCCD#32 = 0x4CCCCD := by decide
  norm_num [f32Units, f32Mag, f32Exp_resetGain, hS, hM]

/-- Settles O47: the integer form agrees with R15's formula pattern by pattern, and gives the reset gain's value. -/
theorem finiteValuesAreMultiplesOfTheSmallestSubnormal :
    Obligations.FiniteValuesAreMultiplesOfTheSmallestSubnormal := by
  refine ⟨fun b _ => f32val_eq_f32Units_div b, f32class_resetGain, ?_⟩
  rw [f32val_eq_f32Units_div, f32Units_resetGain]
  norm_num

/-! ### The idle step (00_scope.md R8) -/

theorem step_of_pending_nil {s : State} (h : s.pending = []) : step s = .next s := by
  simp only [step, h]

/-- Settles O43, by the equation of the idle step. -/
theorem nothingChangesWithoutAnAgentsMove : Obligations.NothingChangesWithoutAnAgentsMove :=
  fun _ => step_of_pending_nil

/-! ### The aperture (00_scope.md R10, 20_memory.md R60) -/

theorem apertureSize_dvd_base : 0x100000 ∣ Config.base := Dvd.intro_left Config.baseMiB rfl

theorem addressOfOffset_mem_aperture (off : Offset) :
    Config.base ≤ addressOfOffset off ∧ addressOfOffset off < Config.base + 0x100000 := by
  have hoff := off.isLt
  unfold addressOfOffset
  omega

theorem offsetOfAddress_addressOfOffset (off : Offset) : offsetOfAddress (addressOfOffset off) = some off := by
  rw [offsetOfAddress, if_pos (addressOfOffset_mem_aperture off), addressOfOffset, Nat.add_sub_cancel_left,
    BitVec.ofNat_toNat, BitVec.setWidth_eq]

/-- An address that has an offset lies in the aperture, and the offset is its distance from BASE. -/
theorem offsetOfAddress_eq_some {a : Nat} {off : Offset} (h : offsetOfAddress a = some off) :
    Config.base ≤ a ∧ a < Config.base + 0x100000 ∧ off = BitVec.ofNat 20 (a - Config.base) := by
  rw [offsetOfAddress] at h
  split at h
  case isTrue hin => exact ⟨hin.1, hin.2, (Option.some.inj h).symm⟩
  case isFalse => cases h

theorem addressOfOffset_of_offsetOfAddress {a : Nat} {off : Offset} (h : offsetOfAddress a = some off) :
    addressOfOffset off = a := by
  obtain ⟨hlo, hhi, rfl⟩ := offsetOfAddress_eq_some h
  have hsmall : a - Config.base < 2 ^ 20 := by omega
  rw [addressOfOffset, BitVec.toNat_ofNat, Nat.mod_eq_of_lt hsmall, Nat.add_sub_of_le hlo]

/-- Settles O45: offsets and the addresses of the aperture name each other, and BASE is aligned. -/
theorem apertureAddressesNameOffsets : Obligations.ApertureAddressesNameOffsets :=
  ⟨Nat.mod_eq_zero_of_dvd apertureSize_dvd_base, offsetOfAddress_addressOfOffset, fun _ _ => addressOfOffset_of_offsetOfAddress⟩

end Sys2Proof.Machine
end

section
/-! PROOFS of the statements of 10_state.md, first part: the cause of a step, and what a step of each cause does. Every
statement about which step writes a field is read off from the two. -/

namespace Sys2Proof.Machine

/-! ### The cause of a step -/

/-- Why a step writes the fields of the delivery, in the terms of the claims; `other` writes none of them. -/
inductive Cause where
  | other
  | skips
  | rejects (c : RejectCode)
  | performs (n : Nat)
  | sreset
  | accept
  | closed
  | reset

/-- The cause that a PROCESS of `n` samples has in the state `s`: the checks of 41_commands.md R153. -/
def State.processCause (s : State) (n : Nat) : Cause :=
  if s.fatal then .rejects .fatal
  else if n = 0 then .skips
  else if s.pend then .rejects .busy
  else if s.cap.toNat < n then .rejects .badLen
  else if gainLegal s.gain then .performs n
  else .rejects .badGain

/-- The cause that a submitted word has in the state `s`, by what `Decode` answers for it. -/
def State.decodedCause (s : State) : Option Decoded → Cause
  | none => .other
  | some (.invalid e) => .rejects (.ofDecode e)
  | some (.command .nop) => .other
  | some (.command (.process n)) => s.processCause n
  | some (.command .sreset) => .sreset

/-- The cause of the next step. A state has one, so the claims' conditions on a step exclude each other. -/
def State.nextCause (s : State) : Cause :=
  match s.pending.head? with
  | some (.sink .accept) => .accept
  | some (.sink .closed) => .closed
  | some .reset => .reset
  | some (.host _) => s.decodedCause s.nextDecoded?
  | none => .other

section
variable {s : State}

/-- Only a Host write submits a command word. -/
theorem head?_of_nextDecoded? {d : Decoded} (h : s.nextDecoded? = some d) :
    ∃ off size v, s.pending.head? = some (.host (.write off size v)) := by
  by_contra hno
  push Not at hno
  rw [nextDecoded?_of_other hno] at h
  cases h

theorem nextCause_of_decoded {d : Decoded} (h : s.nextDecoded? = some d) :
    s.nextCause = s.decodedCause (some d) := by
  obtain ⟨off, size, v, hw⟩ := head?_of_nextDecoded? h
  simp only [State.nextCause, hw, h]

theorem nextCause_of_quiet (hd : s.nextDecoded? = none) (hs : ∀ a, s.pending.head? ≠ some (.sink a))
    (hr : s.pending.head? ≠ some .reset) : s.nextCause = .other := by
  unfold State.nextCause
  split <;> simp_all [State.decodedCause]

theorem processCause_eq_performs {n m : Nat} : s.processCause n = .performs m ↔
    n = m ∧ s.fatal = false ∧ 0 < m ∧ s.pend = false ∧ m ≤ s.cap.toNat ∧ gainLegal s.gain = true := by
  unfold State.processCause
  split_ifs <;> grind

theorem processCause_eq_skips {n : Nat} : s.processCause n = .skips ↔ n = 0 ∧ s.fatal = false := by
  unfold State.processCause
  split_ifs <;> grind

/-- A PROCESS is rejected, skipped or performed. -/
theorem processCause_cases (s : State) (n : Nat) : (∃ c, s.processCause n = .rejects c) ∨
    s.processCause n = .skips ∨ s.processCause n = .performs n := by
  unfold State.processCause
  split_ifs <;> simp

/-- A command word is no answer of the Sink and no hardware reset. -/
theorem decodedCause_ne (s : State) (d : Option Decoded) :
    s.decodedCause d ≠ .accept ∧ s.decodedCause d ≠ .closed ∧ s.decodedCause d ≠ .reset := by
  rcases d with _ | e | _ | n | _
  case some.command.process => rcases processCause_cases s n with ⟨c, h⟩ | h | h <;> simp [State.decodedCause, h]
  all_goals simp [State.decodedCause]

/-- The causes that only a command word has are those of the decoded word. -/
theorem nextCause_eq_iff_decodedCause {c : Cause} (h0 : c ≠ .other) (h1 : c ≠ .accept) (h2 : c ≠ .closed)
    (h3 : c ≠ .reset) : s.nextCause = c ↔ s.decodedCause s.nextDecoded? = c := by
  cases hd : s.nextDecoded? with
  | some d => rw [nextCause_of_decoded hd]
  | none =>
    have hc : c ≠ s.decodedCause none := h0
    unfold State.nextCause
    split <;> simp [hd, h0.symm, h1.symm, h2.symm, h3.symm, hc.symm]

/-! ### The claims' conditions, by the cause -/

theorem nextRejection?_eq_some {c : RejectCode} : s.nextRejection? = some c ↔ s.nextCause = .rejects c := by
  rw [nextCause_eq_iff_decodedCause (by simp) (by simp) (by simp) (by simp), State.nextRejection?]
  generalize s.nextDecoded? = d
  rcases d with _ | e | _ | n | _
  case some.command.process =>
    simp only [State.decodedCause, State.processCause]
    split_ifs <;> simp
  all_goals simp [State.decodedCause]

theorem nextPerformsFrame_iff {n : Nat} : s.nextPerformsFrame n ↔ s.nextCause = .performs n := by
  rw [nextCause_eq_iff_decodedCause (by simp) (by simp) (by simp) (by simp), State.nextPerformsFrame,
    State.nextIsCommand]
  generalize s.nextDecoded? = d
  rcases d with _ | e | _ | m | _
  case some.command.process => simp [State.decodedCause, processCause_eq_performs]
  all_goals simp [State.decodedCause]

theorem nextSkips_iff : s.nextSkips ↔ s.nextCause = .skips := by
  rw [nextCause_eq_iff_decodedCause (by simp) (by simp) (by simp) (by simp), State.nextSkips, State.nextIsCommand]
  generalize s.nextDecoded? = d
  rcases d with _ | e | _ | n | _
  case some.command.process => simp [State.decodedCause, processCause_eq_skips]
  all_goals simp [State.decodedCause]

theorem nextIsCommand_sreset_iff : s.nextIsCommand .sreset ↔ s.nextCause = .sreset := by
  rw [nextCause_eq_iff_decodedCause (by simp) (by simp) (by simp) (by simp), State.nextIsCommand]
  generalize s.nextDecoded? = d
  rcases d with _ | e | _ | n | _
  case some.command.process => rcases processCause_cases s n with ⟨c, h⟩ | h | h <;> simp [State.decodedCause, h]
  all_goals simp [State.decodedCause]

theorem head?_eq_accept : s.pending.head? = some (.sink .accept) ↔ s.nextCause = .accept := by
  obtain ⟨h, -, -⟩ := decodedCause_ne s s.nextDecoded?
  unfold State.nextCause
  split <;> simp_all

theorem head?_eq_closed : s.pending.head? = some (.sink .closed) ↔ s.nextCause = .closed := by
  obtain ⟨-, h, -⟩ := decodedCause_ne s s.nextDecoded?
  unfold State.nextCause
  split <;> simp_all

theorem head?_eq_reset : s.pending.head? = some .reset ↔ s.nextCause = .reset := by
  obtain ⟨-, -, h⟩ := decodedCause_ne s s.nextDecoded?
  unfold State.nextCause
  split <;> simp_all

theorem head?_ne_sink : (∀ a, s.pending.head? ≠ some (.sink a)) ↔
    s.nextCause ≠ .accept ∧ s.nextCause ≠ .closed := by
  rw [← head?_eq_accept.ne, ← head?_eq_closed.ne]
  exact ⟨fun h => ⟨h _, h _⟩, fun ⟨hacc, hcl⟩ a => by cases a <;> assumption⟩

theorem nextResets_iff : s.nextResets ↔ s.nextCause = .reset ∨ s.nextCause = .sreset := by
  rw [State.nextResets, head?_eq_reset, nextIsCommand_sreset_iff]
end

/-! ### What a step of each cause does -/

/-- The parts of the state that commands, the Sink and the resets write are the same, but EVENTS. -/
structure State.SameDelivery (s t : State) : Prop where
  pend : t.pend = s.pend
  fatal : t.fatal = s.fatal
  errcode : t.errcode = s.errcode
  olen : t.olen = s.olen
  frameCount : t.frameCount = s.frameCount
  cap : t.cap = s.cap
  outBuf : t.outBuf = s.outBuf
  stream : t.stream = s.stream
  draws : t.draws = s.draws

/-- EVENTS is as before or has had a W1C write (10_state.md R32). -/
def State.EventsKeptOrAcked (s t : State) : Prop :=
  t.events = s.events ∨ ∃ v, s.nextRegWrite? .events = some v ∧ t.events = clearEvents s.events v

/-- The states that a step can leave, by its cause. -/
inductive CauseEffect (s : State) : Cause → State → Prop where
  | other (t : State) : s.SameDelivery t → s.EventsKeptOrAcked t → CauseEffect s .other t
  | skips : CauseEffect s .skips s.taken.skipFrame
  | rejects (c : RejectCode) : CauseEffect s (.rejects c) (s.taken.reject c)
  | performs (n : Nat) : s.fatal = false → s.pend = false → 0 < n → n ≤ s.cap.toNat →
      CauseEffect s (.performs n) (s.taken.offerFrame (s.taken.quantizedFrame n))
  | sreset : CauseEffect s .sreset s.taken.softReset
  | accept (rest : List Action) : s.pend = true → CauseEffect s .accept (s.withPending rest).deliver
  | closed (rest : List Action) : s.pend = true → CauseEffect s .closed (s.withPending rest).closeStream
  | reset (rest : List Action) : CauseEffect s .reset (s.withPending rest).hardReset

section
variable {s t : State}

/-- A write to CTRL, GAIN, IRQ_EN or EVENTS writes these four registers alone (20_memory.md R68). -/
theorem regWrite_config_frame {r : Reg} {v : Word} (hr : r ∈ [Reg.ctrl, Reg.gain, Reg.irqEn, Reg.events])
    (h : regWrite r v s = .next t) :
    t = { s with rmode := t.rmode, gain := t.gain, irqEn := t.irqEn, events := t.events } := by
  simp only [List.mem_cons, List.not_mem_nil, or_false] at hr
  rcases hr with rfl | rfl | rfl | rfl <;> cases h <;> rfl

/-- A write to CTRL, GAIN, IRQ_EN or EVENTS changes EVENTS by the W1C rule only. -/
theorem regWrite_config_events {r : Reg} {v : Word} (hr : r ∈ [Reg.ctrl, Reg.gain, Reg.irqEn, Reg.events])
    (h : regWrite r v s = .next t) : t.events = if r = .events then clearEvents s.events v else s.events := by
  simp only [List.mem_cons, List.not_mem_nil, or_false] at hr
  rcases hr with rfl | rfl | rfl | rfl <;> cases h <;> rfl

/-- PROCESS does what its cause says. -/
theorem execProcess_effect {n : Nat} (h : exec (.process n) s.taken = .next t) :
    CauseEffect s (s.processCause n) t := by
  have of {c : Cause} {u : State} (hc : s.processCause n = c) (hu : CauseEffect s c u)
      (he : execProcess n s.taken = .next u) : CauseEffect s (s.processCause n) t := by
    cases he.symm.trans h
    exact hc ▸ hu
  have hcases := execProcess_cases n s.taken
  simp only [State.taken_fatal, State.taken_pend, State.taken_cap, State.taken_gain] at hcases
  rcases hcases with ⟨hf, he⟩ | ⟨hf, hn, he⟩ | ⟨hf, hn, hp, he⟩ | ⟨hf, hn, hp, hl, he⟩ |
    ⟨hf, hn, hp, hl, hg, he⟩ | ⟨hf, hn, hp, hl, hg, he⟩
  · exact of (by simp [State.processCause, hf]) (.rejects _) he
  · exact of (processCause_eq_skips.2 ⟨hn, hf⟩) .skips he
  · exact of (by simp [State.processCause, hf, hn.ne', hp]) (.rejects _) he
  · exact of (by simp [State.processCause, hf, hn.ne', hp, hl]) (.rejects _) he
  · exact of (by simp [State.processCause, hf, hn.ne', hp, hl.not_gt, hg]) (.rejects _) he
  · exact of (processCause_eq_performs.2 ⟨rfl, hf, hn, hp, hl, hg⟩) (.performs n hf hp hn hl) he

/-- Every step does what its cause says. -/
theorem step_nextCause (h : step s = .next t) : CauseEffect s s.nextCause t := by
  cases step_kind h with
  | none p r hq hd hi hs hr =>
    rw [nextCause_of_quiet hd hs hr]
    exact .other _ ⟨rfl, rfl, rfl, rfl, rfl, rfl, rfl, rfl, rfl⟩ (.inl rfl)
  | reg r v t hconf hq hd hi hs hr hw =>
    rw [nextCause_of_quiet hd hs hr]
    have hevents := regWrite_config_events hconf hw
    refine .other _ ?_ ?_
    · rw [regWrite_config_frame hconf hw]
      exact ⟨rfl, rfl, rfl, rfl, rfl, rfl, rfl, rfl, rfl⟩
    · by_cases he : r = .events
      · exact .inr ⟨v, by rw [hq, if_pos he], by simpa [he] using hevents⟩
      · exact .inl (by simpa [he] using hevents)
  | inWord i v hi hn hq hd hs hr =>
    rw [nextCause_of_quiet hd hs hr]
    exact .other _ ⟨rfl, rfl, rfl, rfl, rfl, rfl, rfl, rfl, rfl⟩ (.inl rfl)
  | invalid e hd hq hi hs hr =>
    rw [nextCause_of_decoded hd]
    exact .rejects _
  | command i t hd hq hi hs hr hx =>
    rw [nextCause_of_decoded hd]
    cases i with
    | nop =>
      cases hx
      exact .other _ ⟨rfl, rfl, rfl, rfl, rfl, rfl, rfl, rfl, rfl⟩ (.inl rfl)
    | process n => exact execProcess_effect hx
    | sreset =>
      cases hx
      exact .sreset
  | accept rest hp h1 hq hd hi =>
    rw [head?_eq_accept.1 (by simp [hp])]
    exact .accept rest h1
  | closed rest hp h1 hq hd hi =>
    rw [head?_eq_closed.1 (by simp [hp])]
    exact .closed rest h1
  | reset rest hp hq hd hi =>
    rw [head?_eq_reset.1 (by simp [hp])]
    exact .reset rest

/-- `step_nextCause` with the cause named, for a case split on it. -/
theorem step_cause (h : step s = .next t) : ∃ c, s.nextCause = c ∧ CauseEffect s c t :=
  ⟨_, rfl, step_nextCause h⟩
end

end Sys2Proof.Machine
end

section
/-! PROOFS of the statements of 10_state.md, second part: which step writes which field of the delivery. -/

namespace Sys2Proof.Machine

/-- Settles O26: PEND after a step of each cause. -/
theorem pendIsWrittenByItsRuleOnly : Obligations.PendIsWrittenByItsRuleOnly := by
  intro s t h
  obtain ⟨c, hc, he⟩ := step_cause h
  simp only [nextPerformsFrame_iff, head?_ne_sink, nextResets_iff, hc]
  cases he with
  | other t hsame _ => simp [hsame.pend]
  | _ => simp

/-- Settles O27: FATAL after a step of each cause. -/
theorem fatalIsStickyUntilReset : Obligations.FatalIsStickyUntilReset := by
  intro s t h
  obtain ⟨c, hc, he⟩ := step_cause h
  simp only [head?_eq_closed, nextResets_iff, hc]
  cases he with
  | other t hsame _ => simp [hsame.fatal]
  | _ => simp

/-- `nextRejection?_eq_some` for the steps that reject nothing. -/
theorem nextRejection?_eq_none {s : State} : s.nextRejection? = none ↔ ∀ c, s.nextCause ≠ .rejects c := by
  simp only [Option.eq_none_iff_forall_ne_some, ne_eq, nextRejection?_eq_some]

/-- Settles O28: ERRCODE after a step of each cause. -/
theorem errcodeHoldsTheLatestRejection : Obligations.ErrcodeHoldsTheLatestRejection := by
  intro s t h
  obtain ⟨c, hc, he⟩ := step_cause h
  simp only [nextResets_iff, nextRejection?_eq_some, nextRejection?_eq_none, hc]
  cases he with
  | other t hsame _ => simp [hsame.errcode]
  | _ => simp

/-- OLEN holds the length of a frame that fits: CAP has 16 bits (10_state.md R31, R37). -/
theorem toNat_olen_offerFrame {s : State} {n : Nat} (h : n ≤ s.cap.toNat) :
    (s.offerFrame (s.quantizedFrame n)).olen.toNat = n := by
  rw [State.offerFrame_olen, State.quantizedFrame_length, BitVec.toNat_ofNat]
  exact Nat.mod_eq_of_lt (by omega)

theorem offer?_of_pend {s : State} (h : s.pend = true) : s.offer? = some s.frame := if_pos h

/-- Settles O30: OLEN after a step of each cause, and the offer's length is OLEN by its definition. -/
theorem olenIsWrittenByItsRuleOnly : Obligations.OlenIsWrittenByItsRuleOnly := by
  intro s t h
  rw [← and_assoc, ← and_assoc]
  refine ⟨?_, fun hp => ⟨t.frame, offer?_of_pend hp, rfl⟩⟩
  obtain ⟨c, hc, he⟩ := step_cause h
  simp only [nextPerformsFrame_iff, nextResets_iff, hc]
  cases he with
  | other t hsame _ => simp [hsame.olen]
  | performs n _ _ _ hle =>
    refine ⟨⟨fun m hm => ?_, by simp⟩, by simp⟩
    cases hm
    exact toNat_olen_offerFrame (s := s.taken) hle
  | _ => simp

/-- Settles O31: FRAME_COUNT and the Sink's stream after a step of each cause. -/
theorem frameCountCountsAccepts : Obligations.FrameCountCountsAccepts := by
  intro s t h
  obtain ⟨c, hc, he⟩ := step_cause h
  simp only [head?_eq_accept, nextResets_iff, ne_eq, hc]
  cases he with
  | other t hsame _ => simp [hsame.frameCount, hsame.stream]
  | accept rest _ => simp [BitVec.toNat_add]
  | _ => simp

theorem step_cap {s t : State} (h : step s = .next t) : t.cap = s.cap := by
  obtain ⟨c, -, he⟩ := step_cause h
  cases he with
  | other t hsame _ => exact hsame.cap
  | _ => rfl

theorem toNat_reset_cap : State.reset.cap.toNat = Config.nmax := by
  have hlt := Config.nmaxLessOne.isLt
  rw [State.reset, BitVec.toNat_ofNat, Nat.mod_eq_of_lt (by unfold Config.nmax; omega)]

theorem toNat_regRead_cap (s : State) : (s.regRead .cap).toNat = s.cap.toNat := by
  rw [State.regRead, BitVec.toNat_setWidth]
  exact Nat.mod_eq_of_lt (by omega)

/-- Settles O32: no step writes CAP, and ID is no field of the state. -/
theorem capAndIdAreConstant : Obligations.CapAndIdAreConstant :=
  ⟨toNat_reset_cap, fun s => ⟨rfl, toNat_regRead_cap s⟩,
    fun s t h => ⟨step_cap h, by simp only [State.regRead, step_cap h]⟩⟩

/-- Settles O24: an offer excludes a performed PROCESS, and the other steps left leave what the message is made of. -/
theorem offerIsStableUntilAnsweredOrReset : Obligations.OfferIsStableUntilAnsweredOrReset := by
  intro s t h hp hsink hres
  obtain ⟨c, hc, he⟩ := step_cause h
  rw [head?_ne_sink] at hsink
  rw [nextResets_iff] at hres
  have hkept : t.pend = s.pend ∧ t.olen = s.olen ∧ t.outBuf = s.outBuf ∧ t.draws = s.draws := by
    cases he with
    | other t hsame _ => exact ⟨hsame.pend, hsame.olen, hsame.outBuf, hsame.draws⟩
    | skips => simp
    | rejects c => simp
    | performs n _ hidle _ _ => simp [hidle] at hp
    | sreset => exact absurd (.inr hc) hres
    | accept rest _ => exact absurd hc hsink.1
    | closed rest _ => exact absurd hc hsink.2
    | reset rest => exact absurd (.inl hc) hres
  obtain ⟨hpend, holen, hout, hdraws⟩ := hkept
  refine ⟨hpend.trans hp, holen, fun i => by simp only [State.outAt, hout, hdraws], ?_⟩
  rw [State.offer?, State.offer?, hpend, State.frame_congr holen hout hdraws]

/-! ### EVENTS (10_state.md R32) -/

/-- The bit number of an event in EVENTS. -/
def Event.index : Event → Nat
  | .delivered => 0
  | .skipped => 1
  | .rejected => 2
  | .sinkfail => 3

theorem Event.index_lt (e : Event) : e.index < 4 := by cases e <;> decide

theorem getLsbD_setEvent (ev : BitVec 4) (e : Event) (k : Nat) :
    (setEvent ev e).getLsbD k = (ev.getLsbD k || decide (k = e.index)) := by
  rw [setEvent, BitVec.getLsbD_or]
  congr 1
  by_cases hk : k < 4
  · cases e <;> interval_cases k <;> decide
  · rw [BitVec.getLsbD_of_ge _ _ (by omega)]
    exact (decide_eq_false (by have := e.index_lt; omega)).symm

theorem getLsbD_clearEvents (ev : BitVec 4) (v : Word) {k : Nat} (hk : k < 4) :
    (clearEvents ev v).getLsbD k = (ev.getLsbD k && !v.getLsbD k) := by
  simp [clearEvents, hk]

/-- The event of a cause, if it sets one (60_exceptions.md R205). -/
def Cause.event? : Cause → Option Event
  | .skips => some .skipped
  | .rejects _ => some .rejected
  | .accept => some .delivered
  | .closed => some .sinkfail
  | .other | .performs _ | .sreset | .reset => none

/-- EVENTS after a step: the event of its cause set, cleared by a reset, a W1C write, or as before. -/
theorem step_events {s t : State} (h : step s = .next t) :
    (∃ e, s.nextCause.event? = some e ∧ t.events = setEvent s.events e) ∨
    (s.nextResets ∧ t.events = 0) ∨ s.EventsKeptOrAcked t := by
  rw [nextResets_iff]
  obtain ⟨c, hc, he⟩ := step_cause h
  rw [hc]
  cases he with
  | other t _ hev => exact .inr (.inr hev)
  | performs n _ _ _ _ => exact .inr (.inr (.inl rfl))
  | sreset => exact .inr (.inl ⟨.inr rfl, rfl⟩)
  | reset rest => exact .inr (.inl ⟨.inl rfl, rfl⟩)
  | _ => exact .inl ⟨_, rfl, rfl⟩

/-- The claims' condition for the next step to set an event (60_exceptions.md R205). -/
def Event.IsCausedIn (s : State) : Event → Prop
  | .delivered => s.pending.head? = some (.sink .accept)
  | .skipped => s.nextSkips
  | .rejected => s.nextRejection?.isSome = true
  | .sinkfail => s.pending.head? = some (.sink .closed)

theorem isCausedIn_of_event? {s : State} {e : Event} (h : s.nextCause.event? = some e) : e.IsCausedIn s := by
  generalize hc : s.nextCause = c at h
  cases c <;> cases h
  · exact nextSkips_iff.2 hc
  · exact Option.isSome_of_eq_some (nextRejection?_eq_some.2 hc)
  · exact head?_eq_accept.2 hc
  · exact head?_eq_closed.2 hc

/-- Settles O34, bit by bit from what a step does to EVENTS. -/
theorem eventsAreSetByTheirCauseAndClearedByAck : Obligations.EventsAreSetByTheirCauseAndClearedByAck := by
  intro s t h
  rcases step_events h with ⟨e, he, hset⟩ | ⟨hres, hzero⟩ | hkept | ⟨v, hv, hack⟩
  · simp only [hset, getLsbD_setEvent]
    refine ⟨by simp +contextual, fun k _ hold hnew => ?_⟩
    have hk : k = e.index := by simpa [hold] using hnew
    have hcause := isCausedIn_of_event? he
    cases e with
    | delivered => exact .inl ⟨hk, hcause⟩
    | skipped => exact .inr (.inl ⟨hk, hcause⟩)
    | rejected => exact .inr (.inr (.inl ⟨hk, hcause⟩))
    | sinkfail => exact .inr (.inr (.inr ⟨hk, hcause⟩))
  · exact ⟨fun _ _ _ _ => .inl hres, by simp [hzero]⟩
  · rw [hkept]
    exact ⟨by simp +contextual, by simp +contextual⟩
  · rw [hack]
    refine ⟨fun k hk hold hnew => .inr ⟨v, hv, ?_⟩, fun k hk hold hnew => ?_⟩
    · rw [getLsbD_clearEvents _ _ hk, hold] at hnew
      simpa using hnew
    · rw [getLsbD_clearEvents _ _ hk, hold] at hnew
      cases hnew

/-! ### IRQ (10_state.md R34) -/

theorem irq_eq_true {s : State} :
    s.irq = true ↔ ∃ k, k < 4 ∧ s.events.getLsbD k = true ∧ s.irqEn.getLsbD k = true := by
  simp only [State.irq, List.any_eq_true, List.mem_range, Bool.and_eq_true]

/-- A step that writes a register is a 32-bit Host write at its offset. -/
theorem pending_of_nextRegWrite? {s : State} {r : Reg} {v : Word} (h : s.nextRegWrite? r = some v) :
    ∃ rest, s.pending = .host (.write r.offset (.bytes 4) v) :: rest := by
  unfold State.nextRegWrite? at h
  split at h
  · rename_i off size w rest hp
    split at h
    case isTrue ht =>
      obtain ⟨rfl, rfl⟩ := busTarget_eq_reg.1 ht
      cases h
      exact ⟨rest, hp⟩
    case isFalse => cases h
  · cases h

/-- Settles O35: the level by its definition, and an IRQ_EN write replaces the enables alone. -/
theorem irqFollowsEventsAndEnables : Obligations.IrqFollowsEventsAndEnables := by
  refine ⟨fun s => irq_eq_true, fun s t v h hv => ?_⟩
  obtain ⟨rest, hp⟩ := pending_of_nextRegWrite? hv
  rw [step_of_regWrite .irqEn hp] at h
  cases h
  refine ⟨rfl, irq_eq_true.trans (exists_congr fun k => and_congr_right fun hk => ?_)⟩
  simp [hk]

/-! ### RMODE, GAIN and IRQ_EN (10_state.md R25, R26, R33) -/

/-- No command writes a register of the configuration, CAP, IN_BUF or the Sink's stream (41_commands.md R152 to R155,
R160). -/
theorem exec_frame {i : Instr} {s t : State} (h : exec i s = .next t) :
    t.rmode = s.rmode ∧ t.gain = s.gain ∧ t.irqEn = s.irqEn ∧ t.cap = s.cap ∧ t.inBuf = s.inBuf ∧
      t.stream = s.stream ∧ t.draws = s.draws := by
  obtain ⟨u, hu, he⟩ := exec_effect i s
  cases h.symm.trans hu
  cases he <;> exact ⟨rfl, rfl, rfl, rfl, rfl, rfl, rfl⟩

/-- A write to CTRL, GAIN, IRQ_EN or EVENTS stores the value's bits in the register it addresses, as seen by the
registers of the configuration. -/
theorem regWrite_config_values {r : Reg} {v : Word} {s t : State}
    (hr : r ∈ [Reg.ctrl, Reg.gain, Reg.irqEn, Reg.events]) (h : regWrite r v s = .next t) :
    t.rmode = (if r = .ctrl then v.getLsbD 0 else s.rmode) ∧ t.gain = (if r = .gain then v else s.gain) ∧
      t.irqEn = if r = .irqEn then v.extractLsb' 0 4 else s.irqEn := by
  simp only [List.mem_cons, List.not_mem_nil, or_false] at hr
  rcases hr with rfl | rfl | rfl | rfl <;> cases h <;> exact ⟨rfl, rfl, rfl⟩

/-- Settles O33, by the kind of the step's move. -/
theorem configurationIsWrittenByTheHostOnly : Obligations.ConfigurationIsWrittenByTheHostOnly := by
  intro s t h
  cases step_kind h with
  | none p r hq _ _ _ hr => simp [hr, hq]
  | reg r v t hconf hq _ _ _ hr hw =>
    obtain ⟨hmode, hgain, hen⟩ := regWrite_config_values hconf hw
    simp only [hmode, hgain, hen, hq, hr]
    split_ifs <;> simp
  | inWord i v _ _ hq _ _ hr => simp [hr, hq]
  | invalid e _ hq _ _ hr => simp [hr, hq]
  | command i t _ hq _ _ hr hx =>
    obtain ⟨hmode, hgain, hen, -⟩ := exec_frame hx
    simp [hr, hq, hmode, hgain, hen]
  | accept rest hp _ hq _ _ => simp [hp, hq]
  | closed rest hp _ hq _ _ => simp [hp, hq]
  | reset rest hp _ _ _ => simp [hp]

/-! ### IN_BUF (10_state.md R42) -/

/-- The states that a step can leave IN_BUF in: as before, the addressed word written, or cleared with a new draw. -/
inductive InBufEffect (s t : State) : Prop where
  | kept : s.pending.head? ≠ some .reset → t.inBuf = s.inBuf → t.draws = s.draws → InBufEffect s t
  | wrote (i : Nat) (v : Word) : s.pending.head? ≠ some .reset → s.nextInWord? = some i → i < s.cap.toNat →
      t.inBuf = (s.writeInWord i v).inBuf → t.draws = s.draws → InBufEffect s t
  | cleared : s.pending.head? = some .reset → t.inBuf = [] → InBufEffect s t

theorem step_inBuf {s t : State} (h : step s = .next t) : InBufEffect s t := by
  cases step_kind h with
  | none p r _ _ _ _ hr => exact .kept hr rfl rfl
  | reg r v t hconf _ _ _ _ hr hw =>
    have hframe := regWrite_config_frame hconf hw
    exact .kept hr (by rw [hframe]; rfl) (by rw [hframe]; rfl)
  | inWord i v hlt hi _ _ _ hr => exact .wrote i v hr hi hlt rfl rfl
  | invalid e _ _ _ _ hr => exact .kept hr rfl rfl
  | command i t _ _ _ _ hr hx =>
    obtain ⟨-, -, -, -, hbuf, -, hdraws⟩ := exec_frame hx
    exact .kept hr hbuf hdraws
  | accept rest hp _ _ _ _ => exact .kept (by simp [hp]) rfl rfl
  | closed rest hp _ _ _ _ => exact .kept (by simp [hp]) rfl rfl
  | reset rest hp _ _ _ => exact .cleared (by simp [hp]) rfl

/-- A written mark depends on the written bytes alone. -/
theorem inWritten_congr {s t : State} (hm : t.inBuf = s.inBuf) (i : Nat) : t.inWritten i = s.inWritten i := by
  simp only [State.inWritten, hm]

/-- With nothing written every word holds its free draw. -/
theorem inWord_of_inBuf_nil {s : State} (h : s.inBuf = []) (i : Nat) : s.inWord i = Config.inBufDraw s.draws i := by
  have hbyte (k : Nat) (hk : k < 4) : s.inByte (inOffset i + k) = byteOf (Config.inBufDraw s.draws i) k := by
    have hword : (inOffset i + k - inBase) / 4 = i := by unfold inOffset; omega
    have hlane : (inOffset i + k - inBase) % 4 = k := by unfold inOffset; omega
    simp [State.inByte, h, Memory.read?, hword, hlane]
  rw [State.inWord, ← Nat.add_zero (inOffset i), hbyte 0 (by omega), hbyte 1 (by omega), hbyte 2 (by omega),
    hbyte 3 (by omega), wordOfBytes_byteOf]

/-- Settles O36, from what a step does to IN_BUF and the laws of a word write. -/
theorem inBufWordIsFixedUntilWritten : Obligations.InBufWordIsFixedUntilWritten := by
  intro s t h
  cases step_inBuf h with
  | kept hr hbuf hdraws =>
    exact ⟨fun i _ _ => ⟨State.inWord_congr hbuf hdraws i, inWritten_congr hbuf i,
      fun k _ => State.inByte_congr hbuf hdraws _⟩, fun hreset => absurd hreset hr⟩
  | wrote j v hr hj _ hbuf hdraws =>
    refine ⟨fun i _ hi => ?_, fun hreset => absurd hreset hr⟩
    have hne : i ≠ j := by
      rintro rfl
      exact hi hj
    refine ⟨?_, ?_, fun k hk => ?_⟩
    · rw [State.inWord_congr hbuf hdraws, State.inWord_writeInWord, if_neg hne]
    · rw [inWritten_congr hbuf, State.inWritten_writeInWord, decide_eq_false hne, Bool.false_or]
    · rw [State.inByte_congr hbuf hdraws, State.inByte_writeInWord, if_neg]
      simp only [inOffset, inBase]
      omega
  | cleared hr hbuf =>
    exact ⟨fun i hne _ => absurd hr hne, fun _ i =>
      ⟨by simp [State.inWritten, hbuf, Memory.read?], inWord_of_inBuf_nil hbuf i⟩⟩

end Sys2Proof.Machine
end

section
/-! PROOFS of the statements of 10_state.md, third part: the frame's samples, the legal gain, reset and the invariant. -/

namespace Sys2Proof.Machine

/-! ### The frame's samples (10_state.md R44, 41_commands.md R156) -/

theorem exec_process_of_performed {s : State} {n : Nat} (hf : s.fatal = false) (hp : s.pend = false) (hn : 0 < n)
    (hle : n ≤ s.cap.toNat) (hg : gainLegal s.gain = true) :
    exec (.process n) s = .next (s.offerFrame (s.quantizedFrame n)) := by
  have hexec : exec (.process n) s = execProcess n s := rfl
  simp [hexec, execProcess, hf, hp, hn.ne', hle.not_gt, hg]

/-- A sample of a performed frame is Q of its own input word, GAIN and RMODE. -/
theorem outAt_of_performed {s t : State} {n i : Nat} (hf : s.fatal = false) (hp : s.pend = false)
    (hle : n ≤ s.cap.toNat) (hg : gainLegal s.gain = true) (hi : i < n) (h : exec (.process n) s = .next t) :
    t.outAt i = bits16 (quantize (s.inWord i) s.gain s.rmode) := by
  rw [exec_process_of_performed hf hp (by omega) hle hg] at h
  cases h
  rw [State.outAt_offerFrame, State.quantizedFrame_length, if_pos hi, List.getD_eq_getElem?_getD,
    State.quantizedFrame_getElem? s hi, Option.getD_some]

/-- Settles O13: both samples are Q of the same arguments. -/
theorem frameSampleDependsOnItsInputGainAndModeOnly :
    Obligations.FrameSampleDependsOnItsInputGainAndModeOnly := by
  intro s s' t t' n n' i hf hp hle hg hf' hp' hle' hgain hmode hword hi hi' h h'
  rw [outAt_of_performed hf hp hle hg hi h, outAt_of_performed hf' hp' hle' (hgain ▸ hg) hi' h', hgain, hmode, hword]

/-! ### The legal gain (10_state.md R26) -/

theorem f32val_nonneg_iff (b : Word) : 0 ≤ f32val b ↔ 0 ≤ f32Units b := by
  have hpow : (0 : ℚ) < 2 ^ 149 := by positivity
  rw [f32val_eq_f32Units_div, le_div_iff₀ hpow, zero_mul, Int.cast_nonneg_iff]

theorem gainLegal_iff (g : Word) : gainLegal g = true ↔ f32class g = .finite ∧ 0 ≤ f32val g := by
  simp only [gainLegal, Bool.and_eq_true, decide_eq_true_eq, f32val_nonneg_iff]

/-- Settles O48: the integer value of a pattern has the sign of its rational value. -/
theorem legalGainIsFiniteAndNonNegative : Obligations.LegalGainIsFiniteAndNonNegative :=
  ⟨gainLegal_iff, by decide, by decide⟩

/-! ### Reset (10_state.md R45) -/

theorem nmax_pos : 1 ≤ Config.nmax := Nat.le_add_left 1 _

theorem nmax_le : Config.nmax ≤ 65535 := Config.nmaxLessOne.isLt

/-- Settles O37: each register's reset value by its field, and CAP by the range of NMAX. -/
theorem resetLeavesTheSpecsRegisterValues : Obligations.ResetLeavesTheSpecsRegisterValues :=
  ⟨rfl, rfl, rfl, rfl, rfl, rfl, rfl, rfl, (toNat_regRead_cap _).trans toNat_reset_cap, nmax_pos, nmax_le, rfl, rfl,
    rfl, fun _ => rfl⟩

theorem memory_wf_nil (nmax : Nat) : Memory.wf nmax [] := by
  simp [Memory.wf, Memory.Rising, Memory.InWindow, Memory.WholeWords]

/-- Settles O39: nothing is offered, written or delivered, and CAP is NMAX. -/
theorem resetSatisfiesTheInvariant : Obligations.ResetSatisfiesTheInvariant where
  notPendAndFatal := by simp [State.reset]
  memoryWf := memory_wf_nil _
  capPos := toNat_reset_cap ▸ nmax_pos
  errcodeLe := by simp [State.reset]
  olenLe := by simp [State.reset]
  outBufLe := by simp [State.reset]
  olenPos := by simp [State.reset]
  noMinimum := by simp [State.reset]
  streamFrames := by simp [State.reset]

/-! ### The range of Q (40_quantize.md R127) -/

theorem one298_pos : 0 < one298 := by decide

theorem clampInt_mem (x : Int) {lo hi : Int} (h : lo ≤ hi) : lo ≤ clampInt x lo hi ∧ clampInt x lo hi ≤ hi := by
  unfold clampInt
  omega

theorem abs_scaledUnits_le (s g : Word) : |scaledUnits s g| ≤ 32767 * one298 := by
  obtain ⟨hlo, hhi⟩ := clampInt_mem (f32Units s * f32Units g) (neg_le_self one298_pos.le)
  rw [scaledUnits, abs_le]
  omega

/-- Rounding toward zero does not leave the range. -/
theorem abs_tdiv_le {y d b : Int} (hd : 0 < d) (h : |y| ≤ b * d) : |y.tdiv d| ≤ b := by
  rw [Int.abs_eq_natAbs, Int.natAbs_tdiv]
  change ((y.natAbs / d.natAbs : ℕ) : ℤ) ≤ b
  rw [Int.natCast_ediv, Int.natCast_natAbs, Int.natCast_natAbs, abs_of_pos hd]
  exact Int.ediv_le_of_le_mul hd h

/-- Rounding to the nearest integer does not leave the range: it goes up only where the quotient is no integer, and
the ends of the range are integers. -/
theorem abs_rneDiv_le {y d b : Int} (hd : 0 < d) (h : |y| ≤ b * d) : |rneDiv y d| ≤ b := by
  obtain ⟨hlo, hhi⟩ := abs_le.1 h
  have hfloor_le : y / d ≤ b := Int.ediv_le_of_le_mul hd hhi
  have hle_floor : -b ≤ y / d := Int.le_ediv_of_mul_le hd (by linarith)
  have hup (hr : 0 < y % d) : y / d < b := by
    refine Int.ediv_lt_of_lt_mul hd (lt_of_le_of_ne hhi ?_)
    rintro rfl
    simp at hr
  rw [abs_le]
  unfold rneDiv
  dsimp only
  split_ifs <;> omega

theorem abs_quantize_le (s g : Word) (rm : Bool) : |quantize s g rm| ≤ 32767 := by
  have hscaled := abs_scaledUnits_le s g
  unfold quantize
  split
  · simp
  · split <;> simp
  · split
    · exact abs_rneDiv_le one298_pos hscaled
    · exact abs_tdiv_le one298_pos hscaled

/-- The pattern 0x8000 is no quantized sample's (30_encoding.md R100). -/
theorem bits16_quantize_ne (s g : Word) (rm : Bool) : bits16 (quantize s g rm) ≠ 0x8000#16 := by
  obtain ⟨hlo, hhi⟩ := abs_le.1 (abs_quantize_le s g rm)
  intro h
  have hval := int16_bits16 (k := quantize s g rm) (by omega) (by omega)
  rw [h, show int16 0x8000#16 = -32768 by decide] at hval
  omega

theorem ne_minimum_of_mem_quantizedFrame {s : State} {n : Nat} {x : Half} (h : x ∈ s.quantizedFrame n) :
    x ≠ 0x8000#16 := by
  obtain ⟨i, -, rfl⟩ := List.mem_map.1 h
  exact bits16_quantize_ne _ _ _

/-! ### The invariant (10_state.md R43) -/

theorem step_memoryWf {s t : State} (hs : Memory.wf s.cap.toNat s.inBuf) (h : step s = .next t) :
    Memory.wf t.cap.toNat t.inBuf := by
  rw [step_cap h]
  cases step_inBuf h with
  | kept _ hbuf _ => exact hbuf ▸ hs
  | wrote i v _ _ hi hbuf _ => exact hbuf ▸ Memory.writeWord_wf v hi hs
  | cleared _ hbuf => exact hbuf ▸ memory_wf_nil _

theorem code_le (c : RejectCode) : c.code.toNat ≤ 6 := by cases c <;> decide

theorem inv_of_sameDelivery {s t : State} (hs : s.Inv) (hsame : s.SameDelivery t)
    (hwf : Memory.wf t.cap.toNat t.inBuf) : t.Inv := by
  obtain ⟨hpend, hfatal, herr, holen, -, hcap, hout, hstream, -⟩ := hsame
  exact {
    notPendAndFatal := by simpa only [hpend, hfatal] using hs.notPendAndFatal
    memoryWf := hwf
    capPos := hcap ▸ hs.capPos
    errcodeLe := herr ▸ hs.errcodeLe
    olenLe := by simpa only [holen, hout] using hs.olenLe
    outBufLe := by simpa only [hout, hcap] using hs.outBufLe
    olenPos := by simpa only [hpend, hfatal, holen] using hs.olenPos
    noMinimum := hout ▸ hs.noMinimum
    streamFrames := hstream ▸ hs.streamFrames }

/-- Offering a frame of `n` samples that fits keeps the invariant. -/
theorem inv_offerFrame {s : State} {n : Nat} (hs : s.Inv) (hf : s.fatal = false) (hn : 0 < n)
    (hle : n ≤ s.cap.toNat) : (s.offerFrame (s.quantizedFrame n)).Inv := by
  have holen := toNat_olen_offerFrame hle
  have hlength := State.length_outBuf_offerFrame s (s.quantizedFrame n)
  rw [State.quantizedFrame_length] at hlength
  exact { hs with
    notPendAndFatal := by simp [hf]
    olenLe := by omega
    outBufLe := hlength.trans_le (max_le hle hs.outBufLe)
    olenPos := fun _ => by omega
    noMinimum := fun x hx => by
      rcases List.mem_append.1 hx with hx | hx
      · exact ne_minimum_of_mem_quantizedFrame hx
      · exact hs.noMinimum x (List.mem_of_mem_drop hx) }

/-- Delivering the offered frame keeps the invariant: the frame is whole and not empty. -/
theorem inv_deliver {s : State} (hs : s.Inv) (hp : s.pend = true) : s.deliver.Inv where
  __ := hs
  notPendAndFatal := by simp
  olenPos := fun _ => hs.olenPos (.inl hp)
  streamFrames := fun f hf => by
    rcases List.mem_append.1 hf with hf | hf
    · exact hs.streamFrames f hf
    · cases List.mem_singleton.1 hf
      exact ⟨hs.olenPos (.inl hp), s.length_frame_payload⟩

theorem inv_closeStream {s : State} (hs : s.Inv) (hp : s.pend = true) : s.closeStream.Inv :=
  { hs with notPendAndFatal := by simp, olenPos := fun _ => hs.olenPos (.inl hp) }

theorem inv_softReset {s : State} (hs : s.Inv) : s.softReset.Inv :=
  { hs with notPendAndFatal := by simp, errcodeLe := by simp, olenLe := by simp, olenPos := by simp }

theorem inv_hardReset {s : State} (hs : s.Inv) : s.hardReset.Inv :=
  { hs with
    notPendAndFatal := by simp, memoryWf := memory_wf_nil _, errcodeLe := by simp, olenLe := by simp,
    outBufLe := by simp, olenPos := by simp, noMinimum := by simp }

/-- The invariant does not speak of the moves to come nor of the bus's answer. -/
theorem inv_taken {s : State} (hs : s.Inv) : s.taken.Inv := { hs with }

theorem inv_withPending {s : State} (hs : s.Inv) (p : List Action) : (s.withPending p).Inv := { hs with }

/-- Settles O40: memory by what a step does to IN_BUF, the rest by the update of the step's cause. -/
theorem everyStepKeepsTheInvariant : Obligations.EveryStepKeepsTheInvariant := by
  intro s t hs h
  have hwf := step_memoryWf hs.memoryWf h
  obtain ⟨c, -, he⟩ := step_cause h
  cases he with
  | other t hsame _ => exact inv_of_sameDelivery hs hsame hwf
  | skips => exact { hs with }
  | rejects c => exact { hs with errcodeLe := code_le c }
  | performs n hf _ hn hle => exact inv_offerFrame (inv_taken hs) hf hn hle
  | sreset => exact inv_softReset (inv_taken hs)
  | accept rest hp => exact inv_deliver (inv_withPending hs rest) hp
  | closed rest hp => exact inv_closeStream (inv_withPending hs rest) hp
  | reset rest => exact inv_hardReset (inv_withPending hs rest)

end Sys2Proof.Machine
end

section
/-! PROOFS of the statements of 20_memory.md: what a bus access addresses, what its step does, and the registers'
values. -/

namespace Sys2Proof.Machine

section
variable {s : State} {off : Offset} {size : AccessSize} {v : Word} {rest : List Action}

/-! ### What an access addresses (20_memory.md R61 to R65) -/

/-- The converse of `busTarget_eq_inWord`: no register is at a word of the window. -/
theorem busTarget_inWord {nmax i : Nat} (hi : i < nmax) (ho : off.toNat = inOffset i) :
    busTarget nmax off (.bytes 4) = .inWord i := by
  have hsize : AccessSize.isWord (.bytes 4) = true := rfl
  have halign : off.toNat % 4 = 0 := by simp only [ho, inOffset, inBase]; omega
  have hreg : Reg.ofOffset off = none := by
    rw [Option.eq_none_iff_forall_ne_some]
    exact fun r hr => inOffset_ne_reg ho r (Reg.ofOffset_eq_some.1 hr)
  have hwindow : inBase ≤ off.toNat ∧ off.toNat < inBase + 4 * nmax := by simp only [ho, inOffset]; omega
  have hindex : (off.toNat - inBase) / 4 = i := by simp only [ho, inOffset]; omega
  simp [busTarget, hsize, halign, hreg, hwindow, hindex]

/-- The registers lie word by word below 0x24 (20_memory.md R61). -/
theorem Reg.toNat_offset (r : Reg) : r.offset.toNat % 4 = 0 ∧ r.offset.toNat < 0x24 := by
  cases r <;> decide

/-- Any target but the bus error contradicts the range it lies in. -/
theorem busTarget_undefined {nmax : Nat} (h : size ≠ .bytes 4 ∨ off.toNat % 4 ≠ 0 ∨
    (0x24 ≤ off.toNat ∧ off.toNat < 0x40000) ∨ 0x40000 + 4 * nmax ≤ off.toNat) :
    busTarget nmax off size = .busError := by
  cases ht : busTarget nmax off size with
  | busError => rfl
  | reg r =>
    obtain ⟨rfl, rfl⟩ := busTarget_eq_reg.1 ht
    have hrange := h.resolve_left (· rfl)
    have hr := r.toNat_offset
    omega
  | inWord i =>
    obtain ⟨rfl, ho, hi⟩ := busTarget_eq_inWord ht
    have hrange := h.resolve_left (· rfl)
    simp only [inOffset, inBase] at ho
    omega

/-! ### What the step of an access does (20_memory.md R65 to R68) -/

/-- What the bus answers to a read of a target. -/
def State.readAnswer (s : State) : Target → Response
  | .busError => .error
  | .reg r => .data (s.regRead r)
  | .inWord i => .data (s.inWord i)

/-- Whatever a read addresses, its answer is recorded and that is all. -/
theorem step_of_read (h : s.pending = .host (.read off size) :: rest) : step s =
    .next { s with pending := rest, response := some (s.readAnswer (busTarget s.cap.toNat off size)) } := by
  simp only [step, h, act, hostAccess, hostRead, State.withPending_cap]
  cases busTarget s.cap.toNat off size <;> rfl

theorem step_of_regRead (r : Reg) (h : s.pending = .rd r.offset :: rest) (hv : v = s.regRead r) :
    step s = .next { s with pending := rest, response := some (.data v) } := by
  rw [step_of_read h, busTarget_eq_reg.2 ⟨rfl, rfl⟩, hv, State.readAnswer]

theorem step_of_busError {a : HostAccess} (h : s.pending = .host a :: rest)
    (ht : busTarget s.cap.toNat (accessOffset a) (accessSize a) = .busError) :
    step s = .next { s with pending := rest, response := some .error } := by
  cases a with
  | read off size =>
    rw [accessOffset, accessSize] at ht
    rw [step_of_read h, ht, State.readAnswer]
  | write off size v =>
    rw [accessOffset, accessSize] at ht
    simp only [step, h, act, hostAccess, hostWrite, State.withPending_cap, ht]
    rfl

theorem step_of_inWordWrite {i : Nat} (hi : i < s.cap.toNat) (ho : off.toNat = inOffset i)
    (h : s.pending = .wr off v :: rest) :
    step s = .next (((s.withPending rest).respond .okay).writeInWord i v) := by
  simp only [step, h, act, hostAccess, hostWrite, State.withPending_cap, busTarget_inWord hi ho]

end

/-- A submitted word completes, rejected or not, and leaves the bus's answer. -/
theorem submit_response (w : Word) (s : State) : ∃ t, submit w s = .next t ∧ t.response = s.response := by
  unfold submit
  split
  · exact ⟨_, rfl, rfl⟩
  · rename_i i _
    obtain ⟨t, ht, he⟩ := exec_effect i s
    exact ⟨t, ht, by cases he <;> rfl⟩

/-! ### The registers' values (10_state.md R25, R27) -/

/-- Fields side by side add up, each at its place. -/
theorem toNat_append_eq_add {m n : Nat} (x : BitVec m) (y : BitVec n) :
    (x ++ y).toNat = x.toNat * 2 ^ n + y.toNat := by
  rw [BitVec.toNat_append, ← Nat.shiftLeft_add_eq_or_of_lt y.isLt, Nat.shiftLeft_eq]

theorem toNat_statusWord (s : State) : s.statusWord.toNat =
    s.olen.toNat * 65536 + s.errcode.toNat * 256 + s.fatal.toNat * 2 + s.pend.toNat := by
  simp only [State.statusWord, bit, toNat_append_eq_add, BitVec.toNat_ofBool, BitVec.toNat_ofNat]
  omega

theorem toNat_regRead_ctrl (s : State) : (s.regRead .ctrl).toNat = s.rmode.toNat := by
  cases h : s.rmode <;> simp [State.regRead, bit, h]

/-! ### The statements -/

/-- Settles O15: such an access addresses nothing. -/
theorem undefinedAccessGetsErrorAndChangesNothing : Obligations.UndefinedAccessGetsErrorAndChangesNothing :=
  fun _ _ _ h hbad => step_of_busError h (busTarget_undefined hbad)

/-- Settles O16: the value in each row is the register's. -/
theorem registerReadAnswersTheAssembledFields : Obligations.RegisterReadAnswersTheAssembledFields := by
  intro s off rest h v hrow
  rcases hrow with ⟨rfl, hv⟩ | ⟨rfl, hv⟩ | ⟨rfl, hv⟩ | ⟨rfl, hv⟩ | ⟨rfl, hv⟩ | ⟨rfl, hv⟩ | ⟨rfl, hv⟩ | ⟨rfl, hv⟩ |
    ⟨rfl, hv⟩
  · exact step_of_regRead .id h hv
  · exact step_of_regRead .ctrl h (BitVec.eq_of_toNat_eq (hv.trans (toNat_regRead_ctrl s).symm))
  · exact step_of_regRead .gain h hv
  · exact step_of_regRead .status h (BitVec.eq_of_toNat_eq (hv.trans (toNat_statusWord s).symm))
  · have hevents : s.events.toNat = (s.regRead .events).toNat := (BitVec.toNat_setWidth_of_le (by decide)).symm
    exact step_of_regRead .events h (BitVec.eq_of_toNat_eq (hv.trans hevents))
  · have hirqEn : s.irqEn.toNat = (s.regRead .irqEn).toNat := (BitVec.toNat_setWidth_of_le (by decide)).symm
    exact step_of_regRead .irqEn h (BitVec.eq_of_toNat_eq (hv.trans hirqEn))
  · exact step_of_regRead .cmd h hv
  · exact step_of_regRead .frameCount h hv
  · exact step_of_regRead .cap h (BitVec.eq_of_toNat_eq (hv.trans (toNat_regRead_cap s).symm))

/-- Settles O17, row by row from the register's own write. -/
theorem registerWriteHasItsRowsEffect : Obligations.RegisterWriteHasItsRowsEffect := by
  intro s off v rest h
  refine ⟨?readOnly, ?ctrl, ?gain, ?events, ?irqEn, ?cmd⟩
  case readOnly =>
    rintro (rfl | rfl | rfl | rfl)
    · exact step_of_regWrite .id h
    · exact step_of_regWrite .status h
    · exact step_of_regWrite .frameCount h
    · exact step_of_regWrite .cap h
  case ctrl =>
    rintro rfl
    exact step_of_regWrite .ctrl h
  case gain =>
    rintro rfl
    exact step_of_regWrite .gain h
  case events =>
    rintro rfl
    exact ⟨clearEvents s.events v, fun _ hk => getLsbD_clearEvents _ _ hk, step_of_regWrite .events h⟩
  case irqEn =>
    rintro rfl
    exact ⟨v.extractLsb' 0 4, fun k hk => by simp [hk], step_of_regWrite .irqEn h⟩
  case cmd =>
    rintro rfl
    have hstep : step s = submit v { s with pending := rest, response := some .okay } := step_of_regWrite .cmd h
    exact ⟨hstep, hstep ▸ submit_response v _⟩

/-- Settles O18, from the laws of a word write. -/
theorem inBufAccessStoresAndReadsTheWord : Obligations.InBufAccessStoresAndReadsTheWord := by
  intro s off i rest hi hoff
  have ho : off.toNat = inOffset i := hoff
  refine ⟨fun v h => ⟨_, step_of_inWordWrite hi ho h, ?word, ?mark, ?lanes, ?otherBytes, ?otherWords, rfl⟩,
    fun h => ?read⟩
  case word => rw [State.inWord_writeInWord, if_pos rfl]
  case mark => simp [State.inWritten_writeInWord]
  case lanes =>
    intro k hk
    rw [State.inByte_writeInWord, ho, if_pos (by omega), Nat.add_sub_cancel_left, byteOf]
  case otherBytes =>
    intro a ha
    rw [State.inByte_writeInWord, if_neg (by omega)]
    exact State.inByte_congr rfl rfl a
  case otherWords =>
    intro j hj
    rw [State.inWord_writeInWord, if_neg hj, State.inWritten_writeInWord, decide_eq_false hj, Bool.false_or]
    exact ⟨State.inWord_congr rfl rfl j, inWritten_congr rfl j⟩
  case read => rw [step_of_read h, busTarget_inWord hi ho, State.readAnswer]

/-- Settles O19: whatever a read addresses, its step only records the answer. -/
theorem hostReadsHaveNoSideEffect : Obligations.HostReadsHaveNoSideEffect :=
  fun _ _ _ _ h => ⟨_, step_of_read h⟩

end Sys2Proof.Machine
end

section
/-! PROOFS of the statements of 30_encoding.md: the command word, the opcode map and the payload. -/

namespace Sys2Proof

/-! ### The fields of a command word, as numbers (R90) -/

theorem toNat_opField (w : Word) : (opField w).toNat = w.toNat % 16 := by
  simp [opField, BitVec.extractLsb'_toNat]

theorem toNat_rsvdField (w : Word) : (rsvdField w).toNat = w.toNat / 16 % 4096 := by
  simp [rsvdField, BitVec.extractLsb'_toNat, Nat.shiftRight_eq_div_pow]

theorem toNat_lenField (w : Word) : (lenField w).toNat = w.toNat / 65536 := by
  have hw := w.isLt
  simp only [lenField, BitVec.extractLsb'_toNat, Nat.shiftRight_eq_div_pow]
  omega

/-! ### Decode (R93, R94) -/

/-- `Decode` with its fields read as numbers, so that arithmetic settles which branch a word takes. -/
theorem decode_eq_ite (w : Word) : decode w =
    if 2 < w.toNat % 16 then .invalid .badOp
    else if w.toNat / 16 % 4096 ≠ 0 then .invalid .rsvdBits
    else if w.toNat % 16 = 0 then
      if w.toNat / 65536 ≠ 0 then .invalid .rsvdBits else .command .nop
    else if w.toNat % 16 = 1 then .command (.process (w.toNat / 65536))
    else if w.toNat / 65536 ≠ 0 then .invalid .rsvdBits else .command .sreset := by
  simp only [decode, ne_eq, ← BitVec.toNat_inj, toNat_opField, toNat_rsvdField, toNat_lenField]
  rfl

theorem decode_eq_process {w : Word} {n : Nat} (h : w.toNat = n * 65536 + 1) :
    decode w = .command (.process n) := by
  have hop : w.toNat % 16 = 1 := by omega
  have hrsvd : w.toNat / 16 % 4096 = 0 := by omega
  have hlen : w.toNat / 65536 = n := by omega
  simp [decode_eq_ite, hop, hrsvd, hlen]

theorem toNat_encode_process {n : Nat} (hn : n ≤ 65535) : (encode (.process n)).toNat = n * 65536 + 1 := by
  rw [encode, Machine.toNat_append_eq_add, BitVec.toNat_ofNat, Nat.mod_eq_of_lt (by omega)]
  rfl

/-- The encoder's word for PROCESS is the one that R94 gives. -/
theorem encode_process_eq_shiftLeft_or (n : Nat) :
    encode (.process n) = (BitVec.ofNat 32 n <<< 16) ||| 0x00000001#32 := by
  have hshift : n % 2 ^ 32 * 2 ^ 16 % 2 ^ 32 = n % 2 ^ 16 * 2 ^ 16 := by omega
  apply BitVec.eq_of_toNat_eq
  simp only [encode, BitVec.toNat_append, BitVec.toNat_or, BitVec.toNat_shiftLeft, BitVec.toNat_ofNat,
    Nat.shiftLeft_eq, hshift]

theorem decode_encode {i : Instr} (h : i.WellFormed) : decode (encode i) = .command i := by
  cases i with
  | nop => decide
  | process n => exact decode_eq_process (toNat_encode_process (of_decide_eq_true h))
  | sreset => decide

/-- No word but its encoding decodes to a command. -/
theorem eq_encode_of_decode {w : Word} {i : Instr} (h : decode w = .command i) :
    i.WellFormed ∧ w = encode i := by
  rw [decode_eq_ite] at h
  split_ifs at h with hop hrsvd hnop hlen hprocess hlen
  all_goals cases h
  · exact ⟨rfl, BitVec.eq_of_toNat_eq (show w.toNat = 0 by omega)⟩
  · have hn : w.toNat / 65536 ≤ 65535 := by omega
    refine ⟨decide_eq_true hn, BitVec.eq_of_toNat_eq ?_⟩
    rw [toNat_encode_process hn]
    omega
  · exact ⟨rfl, BitVec.eq_of_toNat_eq (show w.toNat = 2 by omega)⟩

theorem decode_eq_command_iff {w : Word} {i : Instr} :
    decode w = .command i ↔ i.WellFormed ∧ w = encode i :=
  ⟨eq_encode_of_decode, fun ⟨hi, hw⟩ => hw ▸ decode_encode hi⟩

theorem decode_isInvalid_iff {w : Word} : (∃ e, decode w = .invalid e) ↔ ∀ i, decode w ≠ .command i := by
  cases decode w <;> simp

/-! ### The opcode map (R91) -/

theorem row_mem_opcodeMap (i : Instr) : i.row ∈ opcodeMap := by
  cases i <;> simp [opcodeMap, Instr.row]

theorem encodingSelectsRow (i : Instr) : Laws.EncodingSelectsRow.Statement i := by
  cases i with
  | nop => exact Laws.EncodingSelectsRow.nop
  | process n => exact Laws.EncodingSelectsRow.process n
  | sreset => exact Laws.EncodingSelectsRow.sreset

/-- A word selects its command's row. -/
theorem row_selects_of_decode {w : Word} {i : Instr} (h : decode w = .command i) : i.row.selects w = true := by
  obtain ⟨-, rfl⟩ := eq_encode_of_decode h
  simp [encodingSelectsRow i _ (row_mem_opcodeMap i)]

/-- A row whose mask covers the whole word is selected by its match alone. -/
theorem eq_of_selects_allOnes {w b : Word} (h : OpcodeRow.selects ⟨0xFFFFFFFF#32, b⟩ w = true) : w = b := by
  have hand : w &&& 0xFFFFFFFF#32 = w := BitVec.and_allOnes
  simpa [OpcodeRow.selects, hand] using h

/-- A word that selects the row of PROCESS has OP = 1 and RSVD = 0. -/
theorem mod_eq_of_selects_process {w : Word} {n : Nat} (h : (Instr.process n).row.selects w = true) :
    w.toNat % 65536 = 1 := by
  have hand : w &&& 0x0000FFFF#32 = 0x00000001#32 := eq_of_beq h
  calc w.toNat % 65536 = (w &&& 0x0000FFFF#32).toNat := by
        rw [BitVec.toNat_and]; exact (Nat.and_two_pow_sub_one_eq_mod w.toNat 16).symm
    _ = 1 := by rw [hand]; rfl

/-- A word that selects a row decodes to a command of that row. -/
theorem decode_of_selects {r : OpcodeRow} {w : Word} (hr : r ∈ opcodeMap) (h : r.selects w = true) :
    ∃ i, decode w = .command i ∧ i.row = r := by
  simp only [opcodeMap, List.mem_cons, List.not_mem_nil, or_false] at hr
  rcases hr with rfl | rfl | rfl
  · exact ⟨.nop, decode_eq_command_iff.2 ⟨rfl, eq_of_selects_allOnes h⟩, rfl⟩
  · have hmod := mod_eq_of_selects_process h
    exact ⟨.process (w.toNat / 65536), decode_eq_process (by omega), rfl⟩
  · exact ⟨.sreset, decode_eq_command_iff.2 ⟨rfl, eq_of_selects_allOnes h⟩, rfl⟩

/-! ### The payload (R101) -/

/-- Two bytes a sample: byte `2 * i` is the low byte of sample `i`, byte `2 * i + 1` its high byte. -/
theorem getElem?_flatMap_pcmBytes (l : List Half) (i : Nat) :
    (l.flatMap Machine.pcmBytes)[2 * i]? = l[i]?.map (·.extractLsb' 0 8) ∧
    (l.flatMap Machine.pcmBytes)[2 * i + 1]? = l[i]?.map (·.extractLsb' 8 8) := by
  induction l generalizing i with
  | nil => simp
  | cons h l ih =>
    cases i with
    | zero => simp [Machine.pcmBytes]
    | succ i => simpa [Machine.pcmBytes, Nat.mul_succ] using ih i

theorem getElem?_samples (s : Machine.State) {n i : Nat} (h : i < n) : (s.samples n)[i]? = some (s.outAt i) := by
  simp [Machine.State.samples, h]

/-! ### The statements -/

/-- Settles O1: a well-formed command's word decodes to it. -/
theorem decodeOfEncodeIsTheInstruction : Obligations.DecodeOfEncodeIsTheInstruction :=
  fun _ h => decode_encode h

/-- Settles O2: a word decodes to a command exactly when it is that command's encoding. -/
theorem validCommandWordsAreExactlyThese : Obligations.ValidCommandWordsAreExactlyThese := by
  have hnop (w : Word) : decode w = .command .nop ↔ w = 0x00000000#32 :=
    decode_eq_command_iff.trans (and_iff_right rfl)
  have hsreset (w : Word) : decode w = .command .sreset ↔ w = 0x00000002#32 :=
    decode_eq_command_iff.trans (and_iff_right rfl)
  have hprocess (w : Word) (n : Nat) : decode w = .command (.process n) ↔
      n ≤ 65535 ∧ w = (BitVec.ofNat 32 n <<< 16) ||| 0x00000001#32 := by
    rw [decode_eq_command_iff, encode_process_eq_shiftLeft_or, Instr.WellFormed, Instr.wellFormed, decide_eq_true_iff]
  refine ⟨hnop, hsreset, hprocess, fun w => ?invalid⟩
  case invalid =>
    simp only [decode_isInvalid_iff, ← hnop, ← hsreset, ← hprocess, not_or, not_exists]
    constructor
    · exact fun h => ⟨h _, h _, fun n => h _⟩
    · rintro ⟨h0, h2, h1⟩ (_ | n | _)
      · exact h0
      · exact h1 n
      · exact h2

/-- Settles O3, clause by clause of the decoder on numbers. -/
theorem decodeOfEveryWordByItsFields : Obligations.DecodeOfEveryWordByItsFields := by
  intro w
  rw [decode_eq_ite]
  refine ⟨?badOp, ?rsvd, ?nopLen, ?nop, ?process, ?sresetLen, ?sreset, rfl, rfl⟩
  case badOp => intro hop; rw [if_pos hop]
  case rsvd => intro hop hrsvd; rw [if_neg (by omega), if_pos hrsvd]
  case nopLen => intro hop hrsvd hlen; simp [hop, hrsvd, hlen]
  case nop => intro hop hrsvd hlen; simp [hop, hrsvd, hlen]
  case process => intro hop hrsvd; simp [hop, hrsvd]
  case sresetLen => intro hop hrsvd hlen; simp [hop, hrsvd, hlen]
  case sreset => intro hop hrsvd hlen; simp [hop, hrsvd, hlen]

/-- Settles O4: a selected row is that of the command the word decodes to, and a word decodes to one command. -/
theorem opcodeMapAgreesWithDecode : Obligations.OpcodeMapAgreesWithDecode := by
  intro w
  refine ⟨fun i h => ⟨row_mem_opcodeMap i, row_selects_of_decode h⟩, fun r hr h => decode_of_selects hr h, ?unique⟩
  case unique =>
    intro r hr q hq hrw hqw
    obtain ⟨i, hi, rfl⟩ := decode_of_selects hr hrw
    obtain ⟨j, hj, rfl⟩ := decode_of_selects hq hqw
    rw [Decoded.command.inj (hi.symm.trans hj)]

/-- Settles O23, sample by sample of the payload. -/
theorem payloadIsLittleEndianSamples : Obligations.PayloadIsLittleEndianSamples := by
  refine fun s => ⟨s.length_frame_payload, fun i hi => ?_⟩
  have h := getElem?_flatMap_pcmBytes (s.samples s.olen.toNat) i
  rwa [getElem?_samples s hi] at h

end Sys2Proof
end

section
/-! PROOFS of the statements of 40_quantize.md: the two roundings on the rationals, the exact value they round, and the
machine's integers as that value. Every statement about a finite sample is read off from `quantize_of_finite`. -/

namespace Sys2Proof.Machine

/-! ### Truncation (00_scope.md R14, 40_quantize.md R124) -/

theorem truncQ_of_nonneg {y : ℚ} (h : 0 ≤ y) : truncQ y = ⌊y⌋ := if_pos h

theorem truncQ_neg (y : ℚ) : truncQ (-y) = -truncQ y := by
  rcases lt_trichotomy y 0 with h | rfl | h
  · rw [truncQ, truncQ, if_pos (by linarith), if_neg (by linarith), Int.floor_neg]
  · simp [truncQ]
  · rw [truncQ, truncQ, if_neg (by linarith), if_pos h.le, Int.ceil_neg]

@[simp] theorem truncQ_intCast (k : ℤ) : truncQ k = k := by simp [truncQ]

theorem truncQ_mono : Monotone truncQ := by
  intro x y hxy
  unfold truncQ
  split_ifs with hx hy hy
  · exact Int.floor_mono hxy
  · exact absurd (hx.trans hxy) hy
  · exact (Int.ceil_nonpos.2 (by linarith)).trans (Int.floor_nonneg.2 hy)
  · exact Int.ceil_mono hxy

theorem truncQ_eq_zero {y : ℚ} (h : |y| < 1) : truncQ y = 0 := by
  obtain ⟨hlo, hhi⟩ := abs_lt.1 h
  unfold truncQ
  split_ifs with hy
  · exact Int.floor_eq_zero_iff.2 ⟨hy, hhi⟩
  · exact Int.ceil_eq_iff.2 ⟨by push_cast; linarith, by push_cast; linarith⟩

theorem abs_sub_truncQ_lt (y : ℚ) : |y - truncQ y| < 1 := by
  rw [abs_lt, truncQ]
  split_ifs
  · constructor <;> linarith [Int.floor_le y, Int.lt_floor_add_one y]
  · constructor <;> linarith [Int.le_ceil y, Int.ceil_lt_add_one y]

/-! ### Rounding half to even (00_scope.md R14, 40_quantize.md R125) -/

/-- `k` is nearest to `y`, and even where `y` is halfway: what `rneQ` answers, without its case analysis. -/
def IsNearestEven (y : ℚ) (k : ℤ) : Prop := |y - k| < 1 / 2 ∨ |y - k| = 1 / 2 ∧ k % 2 = 0

theorem IsNearestEven.abs_sub_le {y : ℚ} {k : ℤ} (h : IsNearestEven y k) : |y - k| ≤ 1 / 2 := by
  rcases h with h | ⟨h, -⟩
  · exact h.le
  · exact h.le

theorem IsNearestEven.neg {y : ℚ} {k : ℤ} (h : IsNearestEven y k) : IsNearestEven (-y) (-k) := by
  have habs : |-y - ((-k : ℤ) : ℚ)| = |y - k| := by rw [← abs_neg]; push_cast; ring_nf
  rw [IsNearestEven, habs]
  exact h.imp_right fun ⟨hhalf, heven⟩ => ⟨hhalf, by omega⟩

/-- Two answers in the wrong order would be neighbours, both halfway from `x = y`, and both even. -/
theorem IsNearestEven.le {x y : ℚ} {k l : ℤ} (hxy : x ≤ y) (hk : IsNearestEven x k) (hl : IsNearestEven y l) :
    k ≤ l := by
  by_contra! hlt
  obtain ⟨hk1, -⟩ := abs_le.1 hk.abs_sub_le
  obtain ⟨-, hl2⟩ := abs_le.1 hl.abs_sub_le
  have hkl : k = l + 1 := by
    have hle : (k : ℚ) < (l + 2 : ℤ) := by push_cast; linarith
    have := Int.cast_lt.1 hle
    omega
  subst hkl
  push_cast at hk1
  rcases hk with hk | ⟨-, hkeven⟩
  · rw [abs_lt] at hk; push_cast at hk; linarith
  rcases hl with hl | ⟨-, hleven⟩
  · rw [abs_lt] at hl; linarith
  omega

/-- The branches of `rneQ`, by the fraction of `y`. -/
theorem isNearestEven_rneQ (y : ℚ) : IsNearestEven y (rneQ y) := by
  have hfloor := Int.floor_le y
  have hsucc := Int.lt_floor_add_one y
  unfold rneQ
  split_ifs with hlt hgt heven
  · exact .inl (abs_lt.2 ⟨by linarith, hlt⟩)
  · exact .inl (abs_lt.2 ⟨by push_cast; linarith, by push_cast; linarith⟩)
  · have hhalf : y - ⌊y⌋ = 1 / 2 := by linarith
    exact .inr ⟨by rw [hhalf]; norm_num, heven⟩
  · have hhalf : y - (⌊y⌋ + 1 : ℤ) = -(1 / 2) := by push_cast; linarith
    exact .inr ⟨by rw [hhalf]; norm_num, by omega⟩

theorem rneQ_eq_iff {y : ℚ} {k : ℤ} : rneQ y = k ↔ IsNearestEven y k :=
  ⟨fun h => h ▸ isNearestEven_rneQ y,
    fun h => ((isNearestEven_rneQ y).le le_rfl h).antisymm (h.le le_rfl (isNearestEven_rneQ y))⟩

theorem rneQ_neg (y : ℚ) : rneQ (-y) = -rneQ y := rneQ_eq_iff.2 (isNearestEven_rneQ y).neg

@[simp] theorem rneQ_intCast (k : ℤ) : rneQ k = k := rneQ_eq_iff.2 (.inl (by norm_num))

theorem rneQ_mono : Monotone rneQ := fun x y hxy => (isNearestEven_rneQ x).le hxy (isNearestEven_rneQ y)

theorem rneQ_eq_zero {y : ℚ} (h : |y| < 1 / 2) : rneQ y = 0 :=
  rneQ_eq_iff.2 (.inl (by simpa using h))

theorem rneQ_eq_one {y : ℚ} (hlo : 1 / 2 < y) (hhi : y < 1) : rneQ y = 1 :=
  rneQ_eq_iff.2 (.inl (abs_lt.2 ⟨by push_cast; linarith, by push_cast; linarith⟩))

theorem rneQ_of_fract_lt {y : ℚ} (h : Int.fract y < 1 / 2) : rneQ y = ⌊y⌋ := if_pos h

theorem rneQ_of_le_fract {y : ℚ} (h : 1 / 2 ≤ Int.fract y) (hodd : Int.fract y = 1 / 2 → ⌊y⌋ % 2 = 1) :
    rneQ y = ⌊y⌋ + 1 := by
  have hge : ¬ y - ⌊y⌋ < 1 / 2 := not_lt.2 h
  rw [rneQ, if_neg hge]
  split_ifs with hgt heven
  · rfl
  · have := hodd (le_antisymm (not_lt.1 hgt) h)
    omega
  · rfl

/-! ### The rounding that the mode selects (40_quantize.md R120) -/

/-- The last line of R120's pseudocode: `trunc(y)` for rm = 0, `rne(y)` for rm = 1. -/
def roundMode (rm : Bool) (y : ℚ) : ℤ := if rm then rneQ y else truncQ y

@[simp] theorem roundMode_true (y : ℚ) : roundMode true y = rneQ y := rfl

@[simp] theorem roundMode_false (y : ℚ) : roundMode false y = truncQ y := rfl

theorem roundMode_neg (rm : Bool) (y : ℚ) : roundMode rm (-y) = -roundMode rm y := by
  cases rm
  · exact truncQ_neg y
  · exact rneQ_neg y

@[simp] theorem roundMode_intCast (rm : Bool) (k : ℤ) : roundMode rm k = k := by
  cases rm
  · exact truncQ_intCast k
  · exact rneQ_intCast k

theorem roundMode_mono (rm : Bool) : Monotone (roundMode rm) := by
  cases rm
  · exact truncQ_mono
  · exact rneQ_mono

/-- An odd monotone rounding of `y` has the magnitude of the rounding of `|y|`. -/
theorem abs_roundMode (rm : Bool) (y : ℚ) : |roundMode rm y| = roundMode rm |y| := by
  have hzero : roundMode rm 0 = 0 := by simpa using roundMode_intCast rm 0
  have hnonneg : 0 ≤ roundMode rm |y| := hzero ▸ roundMode_mono rm (abs_nonneg y)
  rcases abs_choice y with h | h
  · rw [h] at hnonneg ⊢
    exact abs_of_nonneg hnonneg
  · rw [h, roundMode_neg] at hnonneg ⊢
    exact abs_of_nonpos (by omega)

/-! #### The two modes side by side (40_quantize.md R136) -/

/-- Rounding is within 1/2 and truncation within less than 1, so the two integers are less than 3/2 apart. -/
theorem abs_rneQ_sub_truncQ_le (y : ℚ) : |rneQ y - truncQ y| ≤ 1 := by
  obtain ⟨hr1, hr2⟩ := abs_le.1 (isNearestEven_rneQ y).abs_sub_le
  obtain ⟨ht1, ht2⟩ := abs_lt.1 (abs_sub_truncQ_lt y)
  have hup : ((rneQ y - truncQ y : ℤ) : ℚ) < (2 : ℤ) := by push_cast; linarith
  have hdown : ((-2 : ℤ) : ℚ) < (rneQ y - truncQ y : ℤ) := by push_cast; linarith
  have := Int.cast_lt.1 hup
  have := Int.cast_lt.1 hdown
  rw [abs_le]
  omega

theorem rneQ_eq_truncQ_of_fract_lt {y : ℚ} (h : Int.fract |y| < 1 / 2) : rneQ y = truncQ y := by
  have habs : rneQ |y| = truncQ |y| := by rw [rneQ_of_fract_lt h, truncQ_of_nonneg (abs_nonneg y)]
  rcases abs_choice y with hy | hy
  · rwa [hy] at habs
  · rwa [hy, rneQ_neg, truncQ_neg, neg_inj] at habs

theorem abs_rneQ_of_le_fract {y : ℚ} (h : 1 / 2 ≤ Int.fract |y|)
    (hodd : Int.fract |y| = 1 / 2 → ⌊|y|⌋ % 2 = 1) : |rneQ y| = |truncQ y| + 1 := by
  rw [← roundMode_true, ← roundMode_false, abs_roundMode, abs_roundMode, roundMode_true, roundMode_false,
    rneQ_of_le_fract h hodd, truncQ_of_nonneg (abs_nonneg y)]

/-! ### The exact value (40_quantize.md R121 to R123) -/

theorem clampQ_mono (lo hi : ℚ) : Monotone fun x => clampQ x lo hi :=
  fun _ _ h => max_le_max le_rfl (min_le_min le_rfl h)

theorem clampQ_of_one_le {x : ℚ} (h : 1 ≤ x) : clampQ x (-1) 1 = 1 := by
  rw [clampQ, min_eq_left h, max_eq_right (by norm_num)]

theorem clampQ_of_le_neg_one {x : ℚ} (h : x ≤ -1) : clampQ x (-1) 1 = -1 := by
  rw [clampQ, min_eq_right (by linarith), max_eq_left h]

theorem clampQ_of_mem {x : ℚ} (hlo : -1 ≤ x) (hhi : x ≤ 1) : clampQ x (-1) 1 = x := by
  rw [clampQ, min_eq_right hhi, max_eq_right hlo]

theorem clampQ_neg (x : ℚ) : clampQ (-x) (-1) 1 = -clampQ x (-1) 1 := by
  rcases le_total 1 x with h1 | h1
  · rw [clampQ_of_one_le h1, clampQ_of_le_neg_one (by linarith)]
  rcases le_total x (-1) with h2 | h2
  · rw [clampQ_of_le_neg_one h2, clampQ_of_one_le (by linarith), neg_neg]
  · rw [clampQ_of_mem h2 h1, clampQ_of_mem (by linarith) (by linarith)]

theorem exactY_of_one_le {s g : Word} (h : 1 ≤ f32val s * f32val g) : exactY s g = (32767 : ℤ) := by
  rw [exactY, clampQ_of_one_le h]
  norm_num

theorem exactY_of_le_neg_one {s g : Word} (h : f32val s * f32val g ≤ -1) : exactY s g = (-32767 : ℤ) := by
  rw [exactY, clampQ_of_le_neg_one h]
  norm_num

theorem exactY_eq_zero {s g : Word} (h : f32val s * f32val g = 0) : exactY s g = (0 : ℤ) := by
  rw [exactY, h, clampQ_of_mem (by norm_num) (by norm_num)]
  norm_num

/-- A gain that is not negative keeps the order of the samples. -/
theorem exactY_mono {s₁ s₂ g : Word} (hg : 0 ≤ f32val g) (h : f32val s₁ ≤ f32val s₂) :
    exactY s₁ g ≤ exactY s₂ g :=
  mul_le_mul_of_nonneg_right (clampQ_mono _ _ (mul_le_mul_of_nonneg_right h hg)) (by norm_num)

/-! ### The machine's integers are the exact value (40_quantize.md R120, log 14) -/

theorem cast_one298_pos : (0 : ℚ) < one298 := Int.cast_pos.2 one298_pos

theorem f32val_mul_f32val (s g : Word) : f32val s * f32val g = (f32Units s * f32Units g : ℤ) / (one298 : ℚ) := by
  rw [f32val_eq_f32Units_div, f32val_eq_f32Units_div, one298]
  push_cast
  ring

/-- The clipped product is an integer over 2^298. -/
theorem clampQ_f32val_mul (s g : Word) : clampQ (f32val s * f32val g) (-1) 1 =
    (clampInt (f32Units s * f32Units g) (-one298) one298 : ℤ) / (one298 : ℚ) := by
  have hpos := cast_one298_pos
  have hneg : (-1 : ℚ) = -one298 / one298 := by field_simp
  have hone : (1 : ℚ) = one298 / one298 := by field_simp
  rw [f32val_mul_f32val, clampQ, clampInt, hneg, hone, min_div_div_right hpos.le, max_div_div_right hpos.le]
  push_cast
  rfl

theorem exactY_eq_scaledUnits_div (s g : Word) : exactY s g = (scaledUnits s g : ℚ) / one298 := by
  rw [exactY, clampQ_f32val_mul, scaledUnits]
  push_cast
  ring

theorem floor_intCast_div_intCast {d : ℤ} (hd : 0 < d) (y : ℤ) : ⌊(y : ℚ) / d⌋ = y / d := by
  lift d to ℕ using hd.le
  exact Rat.floor_intCast_div_natCast y d

/-- `Int.tdiv` is truncation of the quotient: the floor of a quotient that is not negative, and both are odd. -/
theorem truncQ_div {d : ℤ} (hd : 0 < d) (y : ℤ) : truncQ ((y : ℚ) / d) = y.tdiv d := by
  have hnonneg {z : ℤ} (hz : 0 ≤ z) : truncQ ((z : ℚ) / d) = z.tdiv d := by
    rw [truncQ_of_nonneg (by positivity), floor_intCast_div_intCast hd, Int.tdiv_eq_ediv_of_nonneg hz]
  rcases le_total 0 y with hy | hy
  · exact hnonneg hy
  · have hneg := hnonneg (neg_nonneg.2 hy)
    rwa [Int.neg_tdiv, Int.cast_neg, neg_div, truncQ_neg, neg_inj] at hneg

/-- The fraction of `y / d` is `(y % d) / d`, so the two functions choose the same branch. -/
theorem rneQ_div {d : ℤ} (hd : 0 < d) (y : ℤ) : rneQ ((y : ℚ) / d) = rneDiv y d := by
  have hdQ : (0 : ℚ) < d := Int.cast_pos.2 hd
  have hfract : (y : ℚ) / d - (y / d : ℤ) = (y % d : ℤ) / (d : ℚ) := by
    have hdiv : ((d * (y / d) + y % d : ℤ) : ℚ) = y := by rw [Int.mul_ediv_add_emod]
    push_cast at hdiv
    field_simp
    linarith
  have hlt : (y % d : ℤ) / (d : ℚ) < 1 / 2 ↔ 2 * (y % d) < d := by
    rw [div_lt_div_iff₀ hdQ two_pos, ← @Int.cast_lt ℚ]
    push_cast
    constructor <;> intro h <;> linarith
  have hgt : 1 / 2 < (y % d : ℤ) / (d : ℚ) ↔ d < 2 * (y % d) := by
    rw [div_lt_div_iff₀ two_pos hdQ, ← @Int.cast_lt ℚ]
    push_cast
    constructor <;> intro h <;> linarith
  simp only [rneQ, rneDiv, floor_intCast_div_intCast hd, hfract, hlt, hgt]

/-! ### Q by the class of the sample (40_quantize.md R120) -/

theorem f32class_eq_nan {s : Word} (hE : f32Exp s = 255) (hM : f32Frac s ≠ 0) : f32class s = .nan := by
  rw [f32class, if_pos hE, if_neg hM]

theorem quantize_of_nan {s : Word} (h : f32class s = .nan) (g : Word) (rm : Bool) : quantize s g rm = 32767 := by
  simp only [quantize, h]

theorem quantize_of_inf {s : Word} (h : f32class s = .inf) (g : Word) (rm : Bool) :
    quantize s g rm = if f32Sign s then -32767 else 32767 := by
  simp only [quantize, h]

/-- The machine rounds the exact value of R120. -/
theorem quantize_of_finite {s : Word} (h : f32class s = .finite) (g : Word) (rm : Bool) :
    quantize s g rm = roundMode rm (exactY s g) := by
  rw [exactY_eq_scaledUnits_div]
  simp only [quantize, h, roundMode, truncQ_div one298_pos, rneQ_div one298_pos]

/-- The value is below every number, above every number, or that of a finite pattern, and Q follows it. -/
theorem f32ext_cases {s : Word} (hs : f32class s ≠ .nan) :
    (f32ext s = ⊥ ∧ ∀ g rm, quantize s g rm = -32767) ∨
    (f32ext s = ((⊤ : WithTop ℚ) : WithBot (WithTop ℚ)) ∧ ∀ g rm, quantize s g rm = 32767) ∨
    (f32ext s = ((f32val s : ℚ) : WithTop ℚ) ∧ ∀ g rm, quantize s g rm = roundMode rm (exactY s g)) := by
  cases hc : f32class s with
  | nan => exact absurd hc hs
  | inf =>
    cases hsign : f32Sign s with
    | true => exact .inl ⟨by simp [f32ext, hc, hsign], fun g rm => by simp [quantize_of_inf hc, hsign]⟩
    | false => exact .inr (.inl ⟨by simp [f32ext, hc, hsign], fun g rm => by simp [quantize_of_inf hc, hsign]⟩)
  | finite => exact .inr (.inr ⟨by simp [f32ext, hc], quantize_of_finite hc⟩)

/-! ### The sign bit (40_quantize.md R133) -/

@[simp] theorem f32Sign_flip (s : Word) : f32Sign (s ^^^ 0x80000000#32) = !f32Sign s := by
  simp [f32Sign]

@[simp] theorem f32Exp_flip (s : Word) : f32Exp (s ^^^ 0x80000000#32) = f32Exp s := by
  rw [f32Exp, BitVec.extractLsb'_xor, show (0x80000000#32).extractLsb' 23 8 = 0#8 by decide, BitVec.xor_zero, f32Exp]

@[simp] theorem f32Frac_flip (s : Word) : f32Frac (s ^^^ 0x80000000#32) = f32Frac s := by
  rw [f32Frac, BitVec.extractLsb'_xor, show (0x80000000#32).extractLsb' 0 23 = 0#23 by decide, BitVec.xor_zero, f32Frac]

@[simp] theorem f32class_flip (s : Word) : f32class (s ^^^ 0x80000000#32) = f32class s := by
  simp only [f32class, f32Exp_flip, f32Frac_flip]

theorem f32SignQ_flip (s : Word) : f32SignQ (s ^^^ 0x80000000#32) = -f32SignQ s := by
  cases h : f32Sign s <;> simp [f32SignQ, h]

theorem f32val_flip (s : Word) : f32val (s ^^^ 0x80000000#32) = -f32val s := by
  simp only [f32val, f32Exp_flip, f32Frac_flip, f32SignQ_flip]
  split_ifs <;> ring

theorem exactY_flip (s g : Word) : exactY (s ^^^ 0x80000000#32) g = -exactY s g := by
  rw [exactY, f32val_flip, neg_mul, clampQ_neg, neg_mul, exactY]

/-! ### The halfway value (40_quantize.md R125) -/

/-- 32767 is odd, so a half-integer `32767 * n / 2^(e+1)` has `n = m * 2^e` with `m` odd, and `m ≤ 2` leaves 1. -/
theorem two_mul_eq_of_halfway {n k : ℤ} {e : ℕ} (hnonneg : 0 ≤ n) (hle : n ≤ 2 ^ (e + 1))
    (h : 32767 * n * 2 = (2 * k + 1) * 2 ^ (e + 1)) : 2 * n = 2 ^ (e + 1) := by
  have hpos : (0 : ℤ) < 2 ^ e := by positivity
  have hcop : IsCoprime ((2 : ℤ) ^ e) 32767 := IsCoprime.pow_left (by norm_num)
  rw [pow_succ] at h hle ⊢
  have hmul : 32767 * n = 2 ^ e * (2 * k + 1) := by linarith
  obtain ⟨m, rfl⟩ := hcop.dvd_of_dvd_mul_left (Dvd.intro _ hmul.symm)
  have hm : 32767 * m = 2 * k + 1 := mul_left_cancel₀ hpos.ne' (by linarith)
  have hm0 : 0 ≤ m := nonneg_of_mul_nonneg_right hnonneg hpos
  have hm2 : m ≤ 2 := le_of_mul_le_mul_left hle hpos
  have hm1 : m = 1 := by
    interval_cases m
    · omega
    · rfl
    · omega
  rw [hm1]
  ring

theorem one298_eq : one298 = 2 ^ (297 + 1) := by rw [one298, ← pow_add]

theorem abs_clampQ_of_halfway {s g : Word} (h : Int.fract |exactY s g| = 1 / 2) :
    |clampQ (f32val s * f32val g) (-1) 1| = 1 / 2 := by
  have hpos := cast_one298_pos
  rw [exactY] at h
  rw [clampQ_f32val_mul] at h ⊢
  generalize hn : clampInt (f32Units s * f32Units g) (-one298) one298 = n at h ⊢
  have hle : |n| ≤ one298 := abs_le.2 (hn ▸ clampInt_mem _ (neg_le_self one298_pos.le))
  rw [abs_mul, abs_div, abs_of_pos hpos, abs_of_pos (by norm_num : (0 : ℚ) < 32767)] at h
  rw [abs_div, abs_of_pos hpos]
  generalize hk : ⌊|(n : ℚ)| / one298 * 32767⌋ = k at *
  have hhalf : |(n : ℚ)| / one298 * 32767 = k + 1 / 2 := by rw [← hk, ← h, Int.floor_add_fract]
  have heq : 32767 * |n| * 2 = (2 * k + 1) * one298 := by
    rw [← @Int.cast_inj ℚ]
    push_cast
    field_simp at hhalf
    linarith
  rw [one298_eq] at hle heq
  have htwo : (2 * |n| : ℤ) = one298 := one298_eq ▸ two_mul_eq_of_halfway (abs_nonneg n) hle heq
  rw [← htwo] at hpos ⊢
  push_cast at hpos ⊢
  rw [div_eq_div_iff hpos.ne' two_ne_zero]
  ring

theorem clampQ_of_halfway {s g : Word} (h : Int.fract |exactY s g| = 1 / 2) :
    clampQ (f32val s * f32val g) (-1) 1 = 1 / 2 ∨ clampQ (f32val s * f32val g) (-1) 1 = -(1 / 2) :=
  eq_or_eq_neg_of_abs_eq (abs_clampQ_of_halfway h)

theorem abs_exactY_of_halfway {s g : Word} (h : Int.fract |exactY s g| = 1 / 2) : |exactY s g| = 32767 / 2 := by
  rw [exactY, abs_mul, abs_clampQ_of_halfway h]
  norm_num

theorem floor_halfway : ⌊(32767 / 2 : ℚ)⌋ = 16383 := by
  rw [Int.floor_eq_iff]
  norm_num

theorem truncQ_halfway : truncQ (32767 / 2) = 16383 := by
  rw [truncQ_of_nonneg (by norm_num), floor_halfway]

theorem rneQ_halfway : rneQ (32767 / 2) = 16384 :=
  rneQ_eq_iff.2 (.inr ⟨by norm_num [abs_of_neg], by decide⟩)

/-! ### The statements -/

theorem quantize_eq_quantizeExact (s g : Word) (rm : Bool) : quantize s g rm = quantizeExact s g rm := by
  cases hc : f32class s with
  | nan => simp only [quantize_of_nan hc, quantizeExact, hc]
  | inf =>
    have hbit : s.getLsbD 31 = f32Sign s := rfl
    simp only [quantize_of_inf hc, quantizeExact, hc, hbit]
    cases f32Sign s <;> simp
  | finite => cases rm <;> simp [quantize_of_finite hc, quantizeExact, hc]

/-- Settles O49, class by class of the sample. -/
theorem quantizeIsTheExactRationalFunction : Obligations.QuantizeIsTheExactRationalFunction :=
  ⟨fun s g rm _ _ => quantize_eq_quantizeExact s g rm, by decide, by decide⟩

/-- Settles O50: such a pattern is of class NaN. -/
theorem nanSampleGivesPositiveFullScale : Obligations.NanSampleGivesPositiveFullScale :=
  fun _ g rm hE hM => quantize_of_nan (f32class_eq_nan hE hM) g rm

/-- Settles O51: both patterns are of class Inf, and the sign bit chooses. -/
theorem infiniteSampleGivesFullScaleOfItsSign : Obligations.InfiniteSampleGivesFullScaleOfItsSign :=
  fun g rm => ⟨quantize_of_inf (by decide) g rm, quantize_of_inf (by decide) g rm⟩

/-- Settles O52, from the bound on the magnitude. -/
theorem quantizedValueStaysInRange : Obligations.QuantizedValueStaysInRange := by
  intro s g rm _
  obtain ⟨hlo, hhi⟩ := abs_le.1 (abs_quantize_le s g rm)
  exact ⟨hlo, hhi, int16_bits16 (by omega) (by omega), bits16_quantize_ne s g rm⟩

/-- Settles O53: the sign bit negates the exact value, and both roundings are odd. -/
theorem negatedSampleGivesNegatedValue : Obligations.NegatedSampleGivesNegatedValue := by
  intro s g rm hnan _
  have hflip := f32class_flip s
  cases hc : f32class s with
  | nan => exact absurd hc hnan
  | inf =>
    rw [quantize_of_inf hc, quantize_of_inf (hflip.trans hc), f32Sign_flip]
    cases f32Sign s <;> rfl
  | finite => rw [quantize_of_finite hc, quantize_of_finite (hflip.trans hc), exactY_flip, roundMode_neg]

/-- Settles O54: the infinities give the ends of the range, and for finite samples every step of Q is monotone. -/
theorem quantizeIsMonotonic : Obligations.QuantizeIsMonotonic := by
  intro s₁ s₂ g rm h₁ h₂ hg hle
  obtain ⟨-, hgain⟩ := (gainLegal_iff g).1 hg
  rcases f32ext_cases h₁ with ⟨-, hq₁⟩ | ⟨he₁, hq₁⟩ | ⟨he₁, hq₁⟩
  case inl => exact hq₁ g rm ▸ (abs_le.1 (abs_quantize_le s₂ g rm)).1
  case inr.inl =>
    rcases f32ext_cases h₂ with ⟨he₂, -⟩ | ⟨-, hq₂⟩ | ⟨he₂, -⟩
    · simp [he₁, he₂] at hle
    · exact (hq₁ g rm).trans_le (hq₂ g rm).ge
    · simp [he₁, he₂] at hle
  case inr.inr =>
    rcases f32ext_cases h₂ with ⟨he₂, -⟩ | ⟨-, hq₂⟩ | ⟨he₂, hq₂⟩
    · simp [he₁, he₂] at hle
    · exact hq₂ g rm ▸ (abs_le.1 (abs_quantize_le s₁ g rm)).2
    · rw [he₁, he₂, WithBot.coe_le_coe, WithTop.coe_le_coe] at hle
      rw [hq₁, hq₂]
      exact roundMode_mono rm (exactY_mono hgain hle)

/-- Settles O55: the exact value is then an end of the range, an integer. -/
theorem productBeyondOneSaturates : Obligations.ProductBeyondOneSaturates := by
  intro s g rm hs _
  rw [quantize_of_finite hs]
  exact ⟨fun h => by rw [exactY_of_one_le h, roundMode_intCast],
    fun h => by rw [exactY_of_le_neg_one h, roundMode_intCast]⟩

/-- Settles O57: the exact value is then 32767/2 or its negative. -/
theorem halfwayOnlyAtClippedOneHalf : Obligations.HalfwayOnlyAtClippedOneHalf := by
  intro s g hs _ hhalf
  rw [quantize_of_finite hs, quantize_of_finite hs, roundMode_true, roundMode_false]
  rcases clampQ_of_halfway hhalf with hc | hc
  · have hy : exactY s g = 32767 / 2 := by rw [exactY, hc]; norm_num
    exact .inl ⟨hc, by rw [hy, rneQ_halfway], by rw [hy, truncQ_halfway]⟩
  · have hy : exactY s g = -(32767 / 2) := by rw [exactY, hc]; norm_num
    exact .inr ⟨hc, by rw [hy, rneQ_neg, rneQ_halfway], by rw [hy, truncQ_neg, truncQ_halfway]⟩

/-- Settles O56: a halfway value has the odd floor 16383, so rounding to even then goes away from zero too. -/
theorem roundingModesDifferByAtMostOne : Obligations.RoundingModesDifferByAtMostOne := by
  intro s g _
  have hother (h : f32class s ≠ .finite) : quantize s g true = quantize s g false := by
    cases hc : f32class s with
    | nan => rw [quantize_of_nan hc, quantize_of_nan hc]
    | inf => rw [quantize_of_inf hc, quantize_of_inf hc]
    | finite => exact absurd hc h
  by_cases hs : f32class s = .finite
  · have hodd (h : Int.fract |exactY s g| = 1 / 2) : ⌊|exactY s g|⌋ % 2 = 1 := by
      rw [abs_exactY_of_halfway h, floor_halfway]
      rfl
    rw [quantize_of_finite hs, quantize_of_finite hs, roundMode_true, roundMode_false]
    exact ⟨abs_rneQ_sub_truncQ_le _, fun _ => ⟨fun h => abs_rneQ_of_le_fract h hodd, rneQ_eq_truncQ_of_fract_lt⟩,
      fun h => absurd hs h⟩
  · exact ⟨by simp [hother hs], fun h => absurd h hs, hother⟩

/-- Settles O58: a zero gain makes the product 0. -/
theorem zeroGainSilencesFiniteSamples : Obligations.ZeroGainSilencesFiniteSamples := by
  intro s g rm hs hg
  have hunits : f32Units g = 0 := by rcases hg with rfl | rfl <;> decide
  have hval : f32val g = 0 := by rw [f32val_eq_f32Units_div, hunits]; norm_num
  rw [quantize_of_finite hs, exactY_eq_zero (by rw [hval, mul_zero]), roundMode_intCast]

/-- Settles O59: the roundings of small values, and 1/2 would be a halfway value other than 32767/2. -/
theorem smallValuesRoundToZeroOrOne : Obligations.SmallValuesRoundToZeroOrOne := by
  intro s g hs _
  simp only [quantize_of_finite hs, roundMode_true, roundMode_false]
  refine ⟨fun h rm => ?zero, truncQ_eq_zero, rneQ_eq_zero, rneQ_eq_one, fun hlo hhi => ?minusOne, fun h => ?half⟩
  case zero => rw [exactY_eq_zero (by rw [h, zero_mul]), roundMode_intCast]
  case minusOne => rw [← neg_neg (exactY s g), rneQ_neg, rneQ_eq_one (by linarith) (by linarith)]
  case half =>
    have hfract : Int.fract |exactY s g| = 1 / 2 := by
      rw [h, Int.fract_eq_self]
      norm_num
    have := abs_exactY_of_halfway hfract
    norm_num [h] at this

end Sys2Proof.Machine
end

section
/-! PROOFS of the statements of 41_commands.md: what a submitted word does, and what each command does to the state. -/

namespace Sys2Proof.Machine

section
variable {s t : State} {w : Word} {i : Instr} {n : Nat} {rest : List Action}

/-! ### Words that are no command (R152, R160) -/

/-- NOP and SRESET have no operand: beside OP every bit of their words is 0. -/
theorem decode_of_operandBits (hop : w.toNat % 16 = 0 ∨ w.toNat % 16 = 2) (hbits : w.toNat / 16 ≠ 0) :
    decode w = .invalid .rsvdBits := by
  rw [decode_eq_ite]
  by_cases hrsvd : w.toNat / 16 % 4096 = 0
  · have hlen : w.toNat / 65536 ≠ 0 := by omega
    rcases hop with hop | hop <;> simp [hop, hrsvd, hlen]
  · rw [if_neg (by omega), if_pos hrsvd]

/-! ### Submitting a word (R150, R151) -/

theorem submit_of_command (hd : decode w = .command i) (s : State) : submit w s = exec i s := by
  simp only [submit, hd]

theorem submit_of_invalid {e : DecodeError} (hd : decode w = .invalid e) (s : State) :
    submit w s = .next (s.reject (.ofDecode e)) := by
  simp only [submit, hd]

/-- The step of a CMD write submits the word written, the bus answering OKAY. -/
theorem step_of_cmdWrite (h : s.pending = .wr Reg.cmd.offset w :: rest) :
    step s = submit w ((s.withPending rest).respond .okay) :=
  step_of_regWrite .cmd h

/-- A row's bits are laid out as bytes and read back before they are decoded. -/
theorem decode_of_decodeTableWord {nbits k : Nat} (h : decodeTableWord nbits k = some i) :
    decode (BitVec.ofNat 32 (k % 2 ^ nbits)) = .command i := by
  simp only [decodeTableWord, bytesOfWord, decodeBytes, wordOfBytes_byteOf] at h
  split at h
  · rename_i hd
    cases h
    exact Option.some.inj hd
  · cases h

/-! ### PROCESS, by the check that decides it (R153, R154)

`exec_process_of_performed` has the case in which every check passes. -/

theorem exec_process (n : Nat) (s : State) : exec (.process n) s = execProcess n s := rfl

theorem exec_process_of_fatal (n : Nat) (hf : s.fatal = true) :
    exec (.process n) s = .next (s.reject .fatal) := by
  rw [exec_process, execProcess, if_pos hf]

theorem exec_process_zero (hf : s.fatal = false) : exec (.process 0) s = .next s.skipFrame := by
  simp [exec_process, execProcess, hf]

theorem exec_process_of_busy (hf : s.fatal = false) (hn : 0 < n) (hp : s.pend = true) :
    exec (.process n) s = .next (s.reject .busy) := by
  simp [exec_process, execProcess, hf, hn.ne', hp]

theorem exec_process_of_badLen (hf : s.fatal = false) (hn : 0 < n) (hp : s.pend = false) (hl : s.cap.toNat < n) :
    exec (.process n) s = .next (s.reject .badLen) := by
  simp [exec_process, execProcess, hf, hn.ne', hp, hl]

theorem exec_process_of_badGain (hf : s.fatal = false) (hn : 0 < n) (hp : s.pend = false) (hl : n ≤ s.cap.toNat)
    (hg : gainLegal s.gain = false) : exec (.process n) s = .next (s.reject .badGain) := by
  simp [exec_process, execProcess, hf, hn.ne', hp, hl.not_gt, hg]

/-- PROCESS rejects, skips or offers its frame. -/
theorem exec_process_next (h : exec (.process n) s = .next t) :
    (∃ c, t = s.reject c) ∨ t = s.skipFrame ∨ t = s.offerFrame (s.quantizedFrame n) := by
  rw [exec_process] at h
  rcases execProcess_cases n s with ⟨_, he⟩ | ⟨_, _, he⟩ | ⟨_, _, _, he⟩ | ⟨_, _, _, _, he⟩ | ⟨_, _, _, _, _, he⟩ |
    ⟨_, _, _, _, _, he⟩ <;> cases he.symm.trans h
  · exact .inl ⟨_, rfl⟩
  · exact .inr (.inl rfl)
  · exact .inl ⟨_, rfl⟩
  · exact .inl ⟨_, rfl⟩
  · exact .inl ⟨_, rfl⟩
  · exact .inr (.inr rfl)

/-! ### What commands leave (R152 to R155, R160) -/

/-- No command takes a move or answers on the bus. -/
theorem exec_keepsAgents (h : exec i s = .next t) : t.response = s.response ∧ t.pending = s.pending := by
  obtain ⟨u, hu, he⟩ := exec_effect i s
  cases h.symm.trans hu
  cases he <;> exact ⟨rfl, rfl⟩

/-- Setting an event clears none. -/
theorem and_setEvent (ev : BitVec 4) (e : Event) : ev &&& setEvent ev e = ev := by
  apply BitVec.eq_of_getLsbD_eq
  intro k _
  rw [BitVec.getLsbD_and, getLsbD_setEvent]
  exact inf_sup_self

/-- Only SRESET ends the stream's failure, restarts the count, withdraws an offer or clears an event. -/
theorem exec_keepsStream (hi : i ≠ .sreset) (h : exec i s = .next t) :
    t.fatal = s.fatal ∧ t.frameCount = s.frameCount ∧ (s.pend = true → t.pend = true) ∧
      s.events &&& t.events = s.events := by
  cases i with
  | nop =>
    cases h
    exact ⟨rfl, rfl, id, BitVec.and_self⟩
  | process n =>
    rcases exec_process_next h with ⟨c, rfl⟩ | rfl | rfl
    · exact ⟨rfl, rfl, id, and_setEvent _ _⟩
    · exact ⟨rfl, rfl, id, and_setEvent _ _⟩
    · exact ⟨rfl, rfl, fun _ => rfl, BitVec.and_self⟩
  | sreset => exact absurd rfl hi

/-- With no event set no enable raises IRQ. -/
theorem irq_of_events_zero (h : s.events = 0) : s.irq = false := by
  simp [State.irq, h]

end

/-! ### The statements -/

/-- Settles O7, a lemma for each check; a legal gain is finite with a non-negative value. -/
theorem processAdmissionChecksInOrder : Obligations.ProcessAdmissionChecksInOrder := by
  intro s n
  refine ⟨exec_process_of_fatal n, ?empty, exec_process_of_busy, exec_process_of_badLen, ?badGain, ?performed⟩
  case empty =>
    rintro hf rfl
    exact exec_process_zero hf
  case badGain =>
    intro hf hn hp hl hg
    rw [← gainLegal_iff, Bool.not_eq_true] at hg
    exact exec_process_of_badGain hf hn hp hl hg
  case performed =>
    intro hf hn hp hl hfin hval
    rw [exec_process_of_performed hf hp hn hl ((gainLegal_iff _).2 ⟨hfin, hval⟩), State.offerFrame,
      State.quantizedFrame_length, State.quantizedFrame]

/-- Settles O9, from the laws of the offer. -/
theorem admittedProcessOffersTheQuantizedFrame : Obligations.AdmittedProcessOffersTheQuantizedFrame := by
  intro s n hf hp hn hle hg
  have hexec := exec_process_of_performed hf hp hn hle hg
  refine ⟨_, hexec, fun i hi => outAt_of_performed hf hp hle hg hi hexec, fun i hi => ?beyond,
    toNat_olen_offerFrame hle, rfl, offer?_of_pend rfl, rfl, hf, rfl, rfl, rfl, rfl, rfl, rfl, rfl,
    State.inByte_congr rfl rfl, inWritten_congr rfl, rfl, rfl, rfl, rfl⟩
  case beyond => rw [State.outAt_offerFrame, State.quantizedFrame_length, if_neg hi.not_gt]

/-- Settles O10; that only the two resets end FAILED is what O27 says of FATAL. -/
theorem sresetRestartsTheStream : Obligations.SresetRestartsTheStream := by
  refine ⟨fun _ => rfl, fun s t h => ?irq, by decide, fun w hop hne => ?word, fun s t h hs ht => ?failed⟩
  case irq =>
    cases h
    exact irq_of_events_zero rfl
  case word =>
    refine decode_of_operandBits (.inr hop) fun hbits => hne (BitVec.eq_of_toNat_eq ?_)
    show w.toNat = 2
    omega
  case failed =>
    by_contra hres
    exact Bool.eq_false_iff.1 ht ((fatalIsStickyUntilReset s t h).2 (.inr ⟨hs, hres⟩))

/-- Settles O12, from the frames of the commands. -/
theorem commandsLeaveTheRestUnchanged : Obligations.CommandsLeaveTheRestUnchanged := by
  intro i s t h
  obtain ⟨hmode, hgain, hen, hcap, hbuf, hstream, hdraws⟩ := exec_frame h
  obtain ⟨hresponse, hpending⟩ := exec_keepsAgents h
  exact ⟨hmode, hgain, hen, hcap, State.inByte_congr hbuf hdraws, inWritten_congr hbuf, hstream, hdraws, hresponse,
    hpending, fun hi => exec_keepsStream hi h⟩

/-- Settles O6: NOP's arm is the identity, and an operand bit beside OP = 0 is reserved. -/
theorem nopCompletesAndChangesNothing : Obligations.NopCompletesAndChangesNothing := by
  refine ⟨fun _ => rfl, by decide, fun w hop hne => ?word⟩
  case word =>
    refine decode_of_operandBits (.inl hop) fun hbits => hne (BitVec.eq_of_toNat_eq ?_)
    show w.toNat = 0
    omega

/-- Settles O8: the first check lets it pass, and the second takes it. -/
theorem emptyProcessOnlySetsSkipped : Obligations.EmptyProcessOnlySetsSkipped :=
  ⟨fun _ => exec_process_zero, decode_eq_process rfl⟩

/-- Settles O11: the step submits the word, and the submission rejects it with the code of Decode's answer. -/
theorem invalidCommandWordIsRejected : Obligations.InvalidCommandWordIsRejected := by
  intro s w rest h
  have hstep := step_of_cmdWrite h
  exact ⟨fun hd => hstep.trans (submit_of_invalid hd _), fun hd => hstep.trans (submit_of_invalid hd _)⟩

/-- Settles O41: the step submits the word, and the submission runs its command. -/
theorem stepRunsTheDecodedCommand : Obligations.StepRunsTheDecodedCommand :=
  fun _ _ _ _ h hd => (step_of_cmdWrite h).trans (submit_of_command hd _)

/-- Settles O42: the placed word is the next move's, and it is the word whose bytes the table's decoder reads. -/
theorem placedCommandWordRunsNext : Obligations.PlacedCommandWordRunsNext :=
  fun s _ _ _ h => stepRunsTheDecodedCommand _ _ _ s.pending rfl (decode_of_decodeTableWord h)

end Sys2Proof.Machine
end

section
/-! PROOFS of the statements of 42_handoff.md: the Sink's moves, and the order of the frames along a run. -/

namespace Sys2Proof.Machine

/-! ### The Sink's moves (R181 to R183) -/

section
variable {s : State} {a : SinkAnswer} {rest : List Action}

theorem step_of_sink (h : s.pending = .sink a :: rest) : step s = sinkStep a (s.withPending rest) := by
  simp only [step, h, act]

theorem sinkStep_accept (hp : s.pend = true) : sinkStep .accept s = .next s.deliver := if_pos hp

theorem sinkStep_closed (hp : s.pend = true) : sinkStep .closed s = .next s.closeStream := if_pos hp

theorem sinkStep_of_not_pend (hp : s.pend = false) : sinkStep a s = .fault .sinkWithoutOffer :=
  if_neg (Bool.eq_false_iff.1 hp)

theorem offer?_of_not_pend (hp : s.pend = false) : s.offer? = none := if_neg (Bool.eq_false_iff.1 hp)

end

/-! ### One step: what it delivers and what it leaves offered -/

section
variable {s t u : State} {f g : List Frame}

theorem newOffer_of_rise (hs : s.pend = false) (ht : t.pend = true) : newOffer s t = [t.frame] := if_pos ⟨hs, ht⟩

/-- An unchanged message, offered or not as before, is an unchanged offer. -/
theorem offer?_congr (hpend : t.pend = s.pend) (holen : t.olen = s.olen) (hout : t.outBuf = s.outBuf)
    (hdraws : t.draws = s.draws) : t.offer? = s.offer? := by
  rw [State.offer?, State.offer?, hpend, State.frame_congr holen hout hdraws]

/-- From `s` to `t` the Sink receives frames in order, each at most once: those added to its stream, and then the one
still offered, are among the one offered in `s` and the frames `f` offered since (R184). -/
def DeliversInOrder (s t : State) (f : List Frame) : Prop :=
  ∃ d : List Frame, t.stream = s.stream ++ d ∧ List.Sublist (d ++ t.offer?.toList) (s.offer?.toList ++ f)

/-- With nothing delivered it is enough that the offer stays, is dropped or is new. -/
theorem DeliversInOrder.of_stream_eq (hstream : t.stream = s.stream)
    (hoffer : List.Sublist t.offer?.toList (s.offer?.toList ++ f)) : DeliversInOrder s t f :=
  ⟨[], by rw [hstream, List.append_nil], hoffer⟩

/-- What was offered between counts once: it ends the first stretch's frames and begins the second's. -/
theorem DeliversInOrder.trans (hst : DeliversInOrder s t f) (htu : DeliversInOrder t u g) :
    DeliversInOrder s u (f ++ g) := by
  obtain ⟨d, hd, hsub⟩ := hst
  obtain ⟨e, he, hsub'⟩ := htu
  refine ⟨d ++ e, by rw [he, hd, List.append_assoc], ?_⟩
  rw [List.append_assoc, ← List.append_assoc s.offer?.toList]
  calc List.Sublist (d ++ (e ++ u.offer?.toList)) (d ++ (t.offer?.toList ++ g)) := hsub'.append_left d
    _ = (d ++ t.offer?.toList) ++ g := (List.append_assoc ..).symm
    List.Sublist _ ((s.offer?.toList ++ f) ++ g) := hsub.append_right g

/-- A step keeps the offer, offers a frame where none was offered, delivers the offered frame or drops it. -/
theorem step_deliversInOrder (h : step s = .next t) : DeliversInOrder s t (newOffer s t) := by
  have keeps {t : State} (hstream : t.stream = s.stream) (hoffer : t.offer? = s.offer?) :
      DeliversInOrder s t (newOffer s t) :=
    .of_stream_eq hstream (hoffer ▸ List.sublist_append_left _ _)
  have drops {t : State} (hstream : t.stream = s.stream) (hp : t.pend = false) :
      DeliversInOrder s t (newOffer s t) :=
    .of_stream_eq hstream (offer?_of_not_pend hp ▸ List.nil_sublist _)
  obtain ⟨c, -, he⟩ := step_cause h
  cases he with
  | other t hsame _ => exact keeps hsame.stream (offer?_congr hsame.pend hsame.olen hsame.outBuf hsame.draws)
  | skips => exact keeps rfl (offer?_congr rfl rfl rfl rfl)
  | rejects c => exact keeps rfl (offer?_congr rfl rfl rfl rfl)
  | performs n _ hp _ _ =>
    refine .of_stream_eq rfl ?_
    rw [newOffer_of_rise hp rfl, offer?_of_pend rfl]
    exact List.sublist_append_right _ _
  | sreset => exact drops rfl rfl
  | accept rest hp =>
    refine ⟨[s.frame], rfl, ?_⟩
    rw [offer?_of_pend hp, offer?_of_not_pend rfl]
    exact List.sublist_append_left _ _
  | closed rest _ => exact drops rfl rfl
  | reset rest => exact drops rfl rfl

/-! ### A run, step by step -/

/-- A machine's run that does not stop is a first step and the run after it. -/
theorem run_succ_eq_next {M : Host.Core} {k : Nat} {s u : M.State} (h : M.run (k + 1) s = .next u) :
    ∃ t, M.step s = .next t ∧ M.run k t = .next u := by
  rw [Host.Core.run] at h
  split at h
  · exact ⟨_, ‹_›, h⟩
  · cases h
  · cases h

theorem offersIn_succ {k : Nat} (h : step s = .next t) : offersIn (k + 1) s = newOffer s t ++ offersIn k t := by
  simp only [offersIn, h]

end

/-! ### The statements -/

/-- Settles O25, by induction on the number of steps: a run is its first step and the run after it. -/
theorem deliveredFramesAreOfferedFramesInOrder : Obligations.DeliveredFramesAreOfferedFramesInOrder := by
  intro k
  induction k with
  | zero =>
    intro s t h
    cases h
    exact DeliversInOrder.of_stream_eq rfl (List.sublist_append_left _ _)
  | succ k ih =>
    intro s u h
    obtain ⟨t, hstep, hrun⟩ := run_succ_eq_next h
    rw [offersIn_succ hstep]
    exact (step_deliversInOrder hstep).trans (ih t u hrun)

/-- Settles O21: the Sink's CLOSED, the first admission check of PROCESS, and what O27 says of FATAL. -/
theorem sinkClosedFailsTheStream : Obligations.SinkClosedFailsTheStream := by
  refine ⟨fun s rest h hp => ?closed, fun s n => exec_process_of_fatal n, fun s t h hf hres => ?sticky⟩
  case closed =>
    exact ⟨_, (step_of_sink h).trans (sinkStep_closed hp), offer?_of_not_pend rfl, rfl⟩
  case sticky => exact (fatalIsStickyUntilReset s t h).2 (.inr ⟨hf, hres⟩)

/-- Settles O20: the Sink's ACCEPT, FRAME_COUNT being 32 bits wide. -/
theorem sinkAcceptDeliversTheOfferedFrame : Obligations.SinkAcceptDeliversTheOfferedFrame :=
  fun _ _ h hp => ⟨_, (step_of_sink h).trans (sinkStep_accept hp), offer?_of_pend hp, rfl, BitVec.toNat_add _ _, rfl⟩

/-- Settles O22: the Sink's move meets no offer. -/
theorem sinkHasNoStepWithoutAnOffer : Obligations.SinkHasNoStepWithoutAnOffer :=
  fun _ _ _ h hp => (step_of_sink h).trans (sinkStep_of_not_pend hp)

end Sys2Proof.Machine
end

section
/-! PROOFS of the statements of 60_exceptions.md: the step of a rejected command, and commands under pending events. -/

namespace Sys2Proof.Machine

/-! ### A rejection is precise (R201) -/

section
variable {s : State}

/-- Only the Sink can make a move that stops the machine. -/
theorem step_completes (h : ∀ a, s.pending.head? ≠ some (.sink a)) : ∃ t, step s = .next t := by
  rcases step_effect s with ⟨t, hstep, -⟩ | ⟨-, -, a, rest, hp⟩
  · exact ⟨t, hstep⟩
  · exact absurd (by rw [hp]; rfl) (h a)

theorem step_of_nextRejection? {c : RejectCode} (h : s.nextRejection? = some c) :
    step s = .next (s.taken.reject c) := by
  have hcause := nextRejection?_eq_some.1 h
  have hnosink : ∀ a, s.pending.head? ≠ some (.sink a) := head?_ne_sink.2 (by simp [hcause])
  obtain ⟨t, hstep⟩ := step_completes hnosink
  have heffect := step_nextCause hstep
  rw [hcause] at heffect
  cases heffect
  exact hstep

end

/-! ### The statements -/

/-- Settles O29: the step of a rejected command is its recording, and the codes are the table's. -/
theorem rejectionWritesErrcodeAndEventOnly : Obligations.RejectionWritesErrcodeAndEventOnly :=
  ⟨fun _ _ => step_of_nextRejection?, rfl, rfl, rfl, rfl, rfl, rfl⟩

/-- Settles O14: no check reads EVENTS, so the same case of the command applies, and its updates commute with a change
of EVENTS up to the events they set. -/
theorem eventsDoNotInfluenceCommands : Obligations.EventsDoNotInfluenceCommands := by
  intro i s t ev h
  cases i with
  | nop =>
    cases h
    exact ⟨ev, rfl⟩
  | process n =>
    rw [exec_process] at h
    rcases execProcess_cases n s with ⟨hf, he⟩ | ⟨hf, rfl, he⟩ | ⟨hf, hn, hp, he⟩ | ⟨hf, hn, hp, hl, he⟩ |
      ⟨hf, hn, hp, hl, hg, he⟩ | ⟨hf, hn, hp, hl, hg, he⟩ <;> cases he.symm.trans h
    · exact ⟨setEvent ev .rejected, exec_process_of_fatal n hf⟩
    · exact ⟨setEvent ev .skipped, exec_process_zero hf⟩
    · exact ⟨setEvent ev .rejected, exec_process_of_busy hf hn hp⟩
    · exact ⟨setEvent ev .rejected, exec_process_of_badLen hf hn hp hl⟩
    · exact ⟨setEvent ev .rejected, exec_process_of_badGain hf hn hp hl hg⟩
    · exact ⟨ev, exec_process_of_performed hf hp hn hl hg⟩
  | sreset =>
    cases h
    exact ⟨0, rfl⟩

end Sys2Proof.Machine
end


section
/-! PROOFS of the statements of 70_reset_and_hazards.md: the step of a hardware reset. -/

namespace Sys2Proof.Machine

/-! ### What a hardware reset leaves to be seen (R230) -/

section
variable {s : State}

theorem step_of_reset {rest : List Action} (h : s.pending = .reset :: rest) :
    step s = .next (s.withPending rest).hardReset := by
  simp only [step, h, act]

/-- CAP is the one register that a hardware reset takes from the state before it. -/
theorem regRead_hardReset {r : Reg} (hr : r ≠ .cap) : s.hardReset.regRead r = State.reset.regRead r := by
  cases r with
  | cap => exact absurd rfl hr
  | _ => rfl

theorem inWritten_of_inBuf_nil (h : s.inBuf = []) (i : Nat) : s.inWritten i = false := by
  simp [State.inWritten, h, Memory.read?]

end

/-! ### The statements -/

/-- Settles O38: the next state is `hardReset`, whose fields are the reset column; what is read, offered and signalled
follows from the fields. -/
theorem hardwareResetSetsTheResetValues : Obligations.HardwareResetSetsTheResetValues := by
  intro s rest h
  refine ⟨(s.withPending rest).hardReset, step_of_reset h, fun r => regRead_hardReset, rfl, rfl, rfl, rfl, rfl, rfl,
    rfl, rfl, rfl, rfl, ?marks, ?offer, rfl, ?irq, rfl⟩
  case marks => exact inWritten_of_inBuf_nil (State.hardReset_inBuf _)
  case offer => exact offer?_of_not_pend (State.hardReset_pend _)
  case irq => exact irq_of_events_zero (State.hardReset_events _)

end Sys2Proof.Machine
end

section
/-! PROOFS of the statements about sample words and about where the machine stops. -/

namespace Sys2Proof

/-! ### The table's decoder on a command's own word (R94, R97) -/

/-- The converse of `decode_of_decodeTableWord`, for a word given with all its 32 bits. -/
theorem decodeTableWord_of_decode {w : Word} {i : Instr} (h : decode w = .command i) :
    decodeTableWord 32 w.toNat = some i := by
  have hword : BitVec.ofNat 32 (w.toNat % 2 ^ 32) = w := by
    rw [BitVec.toNat_mod_cancel, BitVec.ofNat_toNat, BitVec.setWidth_eq]
  simp only [decodeTableWord, hword, bytesOfWord, decodeBytes, Machine.wordOfBytes_byteOf, h]

theorem decodeTableWord_encode {i : Instr} (h : i.WellFormed) : decodeTableWord 32 (encode i).toNat = some i :=
  decodeTableWord_of_decode (decode_encode h)

/-! ### The statements -/

/-- Settles O5: the four valid words are the encodings of their commands, and the clauses of R93 reject the other three,
the opcode before the reserved field. -/
theorem sampleCommandWordsDecode : Obligations.SampleCommandWordsDecode := by
  have badOp (w : Word) (hop : 2 < w.toNat % 16) : decode w = .invalid .badOp := by
    obtain ⟨hbadOp, -⟩ := decodeOfEveryWordByItsFields w
    exact hbadOp hop
  have rsvdBits (w : Word) (hop : w.toNat % 16 ≤ 2) (hrsvd : w.toNat / 16 % 4096 ≠ 0) :
      decode w = .invalid .rsvdBits := by
    obtain ⟨-, hrsvdBits, -⟩ := decodeOfEveryWordByItsFields w
    exact hrsvdBits hop hrsvd
  exact ⟨decodeTableWord_encode (i := .nop) rfl, decodeTableWord_encode (i := .process 5) rfl,
    decodeTableWord_encode (i := .process 65535) rfl, decodeTableWord_encode (i := .sreset) rfl,
    badOp _ (by decide), badOp _ (by decide), rsvdBits _ (by decide) (by decide)⟩

end Sys2Proof

namespace Sys2Proof.Machine

/-- Settles O44: of the two ways a step can end, only the Sink's move with no offer has no next state. -/
theorem onlyASinkMoveWithoutOfferStops : Obligations.OnlyASinkMoveWithoutOfferStops := by
  intro s
  rcases step_effect s with ⟨t, hstep, -⟩ | ⟨hfault, hpend, a, rest, hmove⟩
  · exact .inl ⟨t, hstep⟩
  · exact .inr ⟨hfault, hpend, a, congrArg List.head? hmove⟩

end Sys2Proof.Machine
end
